-- ==== Sys2Proof/Word.lean ====
section
/-! DEFINITION. The word types of the CHIP-8 CORE (spec 00_scope.md R6, R7): every quantity is an unsigned value of a
stated width. -/

namespace Sys2Proof

/-- A general register, a timer, a memory byte, the immediate `kk` (`XLEN` = 8). -/
abbrev Byte := BitVec 8

/-- `I`, `PC`, a stack slot, an opcode (`ALEN` = `ILEN` = 16). -/
abbrev Word := BitVec 16

/-- The immediate `n`, and a second-level dispatch key of families 0, 8 and E. -/
abbrev Nibble := BitVec 4

/-- The immediate `nnn`. -/
abbrev Addr12 := BitVec 12

/-- A general register's number, `0..15` (`NREG` = 16). -/
abbrev RegNum := Fin 16

/-- A key's index, `0..15` (`NKEYS` = 16). -/
abbrev KeyNum := Fin 16

end Sys2Proof
end

