-- ==== Sys2Proof/Syntax.lean ====
section
/-! DEFINITION. The instructions: one constructor per row of spec/opcode_table.json, in its order, with the operand
fields of 30_encoding.md R51 and R52. -/

namespace Sys2Proof

/-- The instructions of 30_encoding.md R56 and the three fallback rows of R60. A fallback row carries the opcode's low
twelve bits, which select nothing (R58). -/
inductive Instr where
  /-- `CLS`, `00E0` -/
  | cls
  /-- `RET`, `00EE` -/
  | ret
  /-- `SYS nnn`, `0nnn` with a low nibble other than 0 and E -/
  | sys (nnn : Addr12)
  /-- `JP nnn`, `1nnn` -/
  | jp (nnn : Addr12)
  /-- `CALL nnn`, `2nnn` -/
  | call (nnn : Addr12)
  /-- `SE Vx, kk`, `3xkk` -/
  | seImm (x : RegNum) (kk : Byte)
  /-- `SNE Vx, kk`, `4xkk` -/
  | sneImm (x : RegNum) (kk : Byte)
  /-- `SE Vx, Vy`, `5xy0` -/
  | seReg (x y : RegNum)
  /-- `LD Vx, kk`, `6xkk` -/
  | ldImm (x : RegNum) (kk : Byte)
  /-- `ADD Vx, kk`, `7xkk` -/
  | addImm (x : RegNum) (kk : Byte)
  /-- `LD Vx, Vy`, `8xy0` -/
  | ldReg (x y : RegNum)
  /-- `OR Vx, Vy`, `8xy1` -/
  | orReg (x y : RegNum)
  /-- `AND Vx, Vy`, `8xy2` -/
  | andReg (x y : RegNum)
  /-- `XOR Vx, Vy`, `8xy3` -/
  | xorReg (x y : RegNum)
  /-- `ADD Vx, Vy`, `8xy4` -/
  | addReg (x y : RegNum)
  /-- `SUB Vx, Vy`, `8xy5` -/
  | subReg (x y : RegNum)
  /-- `SHR Vx`, `8xy6`; `y` is in the encoding and is never read (R109) -/
  | shr (x y : RegNum)
  /-- `SUBN Vx, Vy`, `8xy7` -/
  | subnReg (x y : RegNum)
  /-- `SHL Vx`, `8xyE`; `y` is in the encoding and is never read (R111) -/
  | shl (x y : RegNum)
  /-- `SNE Vx, Vy`, `9xy0` -/
  | sneReg (x y : RegNum)
  /-- `LD I, nnn`, `Annn` -/
  | ldI (nnn : Addr12)
  /-- `JP V0, nnn`, `Bnnn` -/
  | jpV0 (nnn : Addr12)
  /-- `RND Vx, kk`, `Cxkk` -/
  | rnd (x : RegNum) (kk : Byte)
  /-- `DRW Vx, Vy, n`, `Dxyn` -/
  | drw (x y : RegNum) (n : Nibble)
  /-- `SKP Vx`, `Ex9E` -/
  | skp (x : RegNum)
  /-- `SKNP Vx`, `ExA1` -/
  | sknp (x : RegNum)
  /-- `LD Vx, DT`, `Fx07` -/
  | ldVxDT (x : RegNum)
  /-- `LD Vx, K`, `Fx0A` -/
  | ldVxK (x : RegNum)
  /-- `LD DT, Vx`, `Fx15` -/
  | ldDTVx (x : RegNum)
  /-- `LD ST, Vx`, `Fx18` -/
  | ldSTVx (x : RegNum)
  /-- `ADD I, Vx`, `Fx1E` -/
  | addIVx (x : RegNum)
  /-- `LD F, Vx`, `Fx29` -/
  | ldFVx (x : RegNum)
  /-- `LD B, Vx`, `Fx33` -/
  | ldBVx (x : RegNum)
  /-- `LD [I], Vx`, `Fx55` -/
  | ldMemVx (x : RegNum)
  /-- `LD Vx, [I]`, `Fx65` -/
  | ldVxMem (x : RegNum)
  /-- `NOP.8`: an unmapped slot of family 8 -/
  | nop8 (rest : Addr12)
  /-- `NOP.E`: an unmapped slot of family E -/
  | nopE (rest : Addr12)
  /-- `NOP.F`: an unmapped slot of family F -/
  | nopF (rest : Addr12)
  deriving DecidableEq, Repr

end Sys2Proof
end

