-- ==== Sys2Proof/WellFormed.lean ====
section
/-! DEFINITION. Which terms of `Instr` stand for an opcode. Operand widths are in the types; what is left is that a
no-op row holds only the words its family leaves unmapped (30_encoding.md R57, R58). -/

namespace Sys2Proof

/-- The second-level key of families 0, 8 and E, `op[3:0]`, in an opcode's low twelve bits (R55). -/
def keyNibble (rest : Addr12) : Nibble := rest.extractLsb' 0 4

/-- The second-level key of family F, `op[7:0]`, in an opcode's low twelve bits (R55). -/
def keyByte (rest : Addr12) : Byte := rest.extractLsb' 0 8

/-- The mapped slots of family 0 (R55). -/
def mapped0 (k : Nibble) : Bool := k == 0x0#4 || k == 0xE#4

/-- The mapped slots of family 8: 0x0 to 0x7, and 0xE (R55). -/
def mapped8 (k : Nibble) : Bool := decide (k.toNat < 8) || k == 0xE#4

/-- The mapped slots of family E (R55). -/
def mappedE (k : Nibble) : Bool := k == 0x1#4 || k == 0xE#4

/-- The mapped slots of family F (R55). -/
def mappedF (k : Byte) : Bool :=
  k == 0x07#8 || k == 0x0A#8 || k == 0x15#8 || k == 0x18#8 || k == 0x1E#8 || k == 0x29#8 || k == 0x33#8 ||
    k == 0x55#8 || k == 0x65#8

/-- The instruction is the meaning of some opcode. -/
def Instr.wellFormed : Instr → Bool
  | .sys nnn => !mapped0 (keyNibble nnn)
  | .nop8 rest => !mapped8 (keyNibble rest)
  | .nopE rest => !mappedE (keyNibble rest)
  | .nopF rest => !mappedF (keyByte rest)
  | .cls | .ret | .jp _ | .call _ | .seImm _ _ | .sneImm _ _ | .seReg _ _ | .ldImm _ _ | .addImm _ _ | .ldReg _ _
  | .orReg _ _ | .andReg _ _ | .xorReg _ _ | .addReg _ _ | .subReg _ _ | .shr _ _ | .subnReg _ _ | .shl _ _
  | .sneReg _ _ | .ldI _ | .jpV0 _ | .rnd _ _ | .drw _ _ _ | .skp _ | .sknp _ | .ldVxDT _ | .ldVxK _ | .ldDTVx _
  | .ldSTVx _ | .addIVx _ | .ldFVx _ | .ldBVx _ | .ldMemVx _ | .ldVxMem _ => true

/-- `Instr.wellFormed` as a proposition. -/
abbrev Instr.WellFormed (i : Instr) : Prop := i.wellFormed = true

end Sys2Proof
end

