-- ==== Sys2Proof/Decode.lean ====
section
/-! DEFINITION. Decoding and encoding of opcodes: the fields (30_encoding.md R51), the two-level dispatch multiplexer
(R54, R55), the opcode table as ordered rows (R56, R60), the encoder (R52, R56), and the layout of an opcode in bytes
(R50). -/

namespace Sys2Proof

/-- A nibble read as a register number or a key index. -/
def nibbleIndex (b : Nibble) : Fin 16 := ⟨b.toNat, by have := b.isLt; omega⟩

/-- A register number as the nibble that encodes it. -/
def indexNibble (r : Fin 16) : Nibble := BitVec.ofNat 4 r.val

/-- `t` = `op[15:12]`, the family (R51). -/
def opT (op : Word) : Nibble := op.extractLsb' 12 4

/-- `x` = `op[11:8]` (R51). -/
def opX (op : Word) : RegNum := nibbleIndex (op.extractLsb' 8 4)

/-- `y` = `op[7:4]` (R51). -/
def opY (op : Word) : RegNum := nibbleIndex (op.extractLsb' 4 4)

/-- `n` = `op[3:0]` (R51). -/
def opN (op : Word) : Nibble := op.extractLsb' 0 4

/-- `kk` = `op[7:0]` (R51). -/
def opKk (op : Word) : Byte := op.extractLsb' 0 8

/-- `nnn` = `op[11:0]` (R51). -/
def opNnn (op : Word) : Addr12 := op.extractLsb' 0 12

/-- The second level of family 0, keyed by the low nibble; its unmapped slots are `SYS nnn` (R55, R58). -/
def decodeFamily0 (op : Word) : Instr :=
  match opN op with
  | 0x0#4 => .cls
  | 0xE#4 => .ret
  | _ => .sys (opNnn op)

/-- The second level of family 8, keyed by the low nibble (R55, R56). -/
def decodeFamily8 (op : Word) : Instr :=
  match opN op with
  | 0x0#4 => .ldReg (opX op) (opY op)
  | 0x1#4 => .orReg (opX op) (opY op)
  | 0x2#4 => .andReg (opX op) (opY op)
  | 0x3#4 => .xorReg (opX op) (opY op)
  | 0x4#4 => .addReg (opX op) (opY op)
  | 0x5#4 => .subReg (opX op) (opY op)
  | 0x6#4 => .shr (opX op) (opY op)
  | 0x7#4 => .subnReg (opX op) (opY op)
  | 0xE#4 => .shl (opX op) (opY op)
  | _ => .nop8 (opNnn op)

/-- The second level of family E, keyed by the low nibble (R55, R56). -/
def decodeFamilyE (op : Word) : Instr :=
  match opN op with
  | 0xE#4 => .skp (opX op)
  | 0x1#4 => .sknp (opX op)
  | _ => .nopE (opNnn op)

/-- The second level of family F, keyed by the low byte (R55, R56). -/
def decodeFamilyF (op : Word) : Instr :=
  match opKk op with
  | 0x07#8 => .ldVxDT (opX op)
  | 0x0A#8 => .ldVxK (opX op)
  | 0x15#8 => .ldDTVx (opX op)
  | 0x18#8 => .ldSTVx (opX op)
  | 0x1E#8 => .addIVx (opX op)
  | 0x29#8 => .ldFVx (opX op)
  | 0x33#8 => .ldBVx (opX op)
  | 0x55#8 => .ldMemVx (opX op)
  | 0x65#8 => .ldVxMem (opX op)
  | _ => .nopF (opNnn op)

/-- The dispatch multiplexer: the top nibble selects a first-level handler, and families 0, 8, E and F have a second
level (R54, R55). Total: every opcode has exactly one meaning (R58). -/
def decodeWord (op : Word) : Instr :=
  match opT op with
  | 0x0#4 => decodeFamily0 op
  | 0x1#4 => .jp (opNnn op)
  | 0x2#4 => .call (opNnn op)
  | 0x3#4 => .seImm (opX op) (opKk op)
  | 0x4#4 => .sneImm (opX op) (opKk op)
  | 0x5#4 => .seReg (opX op) (opY op)
  | 0x6#4 => .ldImm (opX op) (opKk op)
  | 0x7#4 => .addImm (opX op) (opKk op)
  | 0x8#4 => decodeFamily8 op
  | 0x9#4 => .sneReg (opX op) (opY op)
  | 0xA#4 => .ldI (opNnn op)
  | 0xB#4 => .jpV0 (opNnn op)
  | 0xC#4 => .rnd (opX op) (opKk op)
  | 0xD#4 => .drw (opX op) (opY op) (opN op)
  | 0xE#4 => decodeFamilyE op
  | _ => decodeFamilyF op

/-- A word from its two bytes in memory order: big-endian, the high byte at the lower address (R50, 20_memory.md R35). -/
def beWord (hi lo : Byte) : Word := hi.setWidth 16 <<< 8 ||| lo.setWidth 16

/-- A word's two bytes in memory order (20_memory.md R35). -/
def wordBytes (w : Word) : List Byte := [w.extractLsb' 8 8, w.extractLsb' 0 8]

/-- Why bytes hold no opcode. -/
inductive DecodeError where
  /-- fewer than the two bytes of an opcode -/
  | truncated
  deriving DecidableEq, Repr

/-- The instruction at the front of a list of bytes, and the bytes after it. -/
def decodeBytes : List Byte → Except DecodeError (Instr × List Byte)
  | hi :: lo :: rest => .ok (decodeWord (beWord hi lo), rest)
  | [_] => .error .truncated
  | [] => .error .truncated

/-- Format `A`: `t nnn` (R52). -/
def formatA (t : Nibble) (nnn : Addr12) : Word := t.setWidth 16 <<< 12 ||| nnn.setWidth 16

/-- Format `XK`: `t x kk` (R52). -/
def formatXK (t : Nibble) (x : RegNum) (kk : Byte) : Word :=
  t.setWidth 16 <<< 12 ||| (indexNibble x).setWidth 16 <<< 8 ||| kk.setWidth 16

/-- Formats `XY` and `XYN`: `t x y n` (R52). -/
def formatXYN (t : Nibble) (x y : RegNum) (n : Nibble) : Word :=
  t.setWidth 16 <<< 12 ||| (indexNibble x).setWidth 16 <<< 8 ||| (indexNibble y).setWidth 16 <<< 4 ||| n.setWidth 16

/-- The canonical encoding (R56, R57), ignored bits as the conventional table spells them. -/
def encode : Instr → Word
  | .cls => 0x00E0#16
  | .ret => 0x00EE#16
  | .sys nnn => formatA 0x0#4 nnn
  | .jp nnn => formatA 0x1#4 nnn
  | .call nnn => formatA 0x2#4 nnn
  | .seImm x kk => formatXK 0x3#4 x kk
  | .sneImm x kk => formatXK 0x4#4 x kk
  | .seReg x y => formatXYN 0x5#4 x y 0x0#4
  | .ldImm x kk => formatXK 0x6#4 x kk
  | .addImm x kk => formatXK 0x7#4 x kk
  | .ldReg x y => formatXYN 0x8#4 x y 0x0#4
  | .orReg x y => formatXYN 0x8#4 x y 0x1#4
  | .andReg x y => formatXYN 0x8#4 x y 0x2#4
  | .xorReg x y => formatXYN 0x8#4 x y 0x3#4
  | .addReg x y => formatXYN 0x8#4 x y 0x4#4
  | .subReg x y => formatXYN 0x8#4 x y 0x5#4
  | .shr x y => formatXYN 0x8#4 x y 0x6#4
  | .subnReg x y => formatXYN 0x8#4 x y 0x7#4
  | .shl x y => formatXYN 0x8#4 x y 0xE#4
  | .sneReg x y => formatXYN 0x9#4 x y 0x0#4
  | .ldI nnn => formatA 0xA#4 nnn
  | .jpV0 nnn => formatA 0xB#4 nnn
  | .rnd x kk => formatXK 0xC#4 x kk
  | .drw x y n => formatXYN 0xD#4 x y n
  | .skp x => formatXK 0xE#4 x 0x9E#8
  | .sknp x => formatXK 0xE#4 x 0xA1#8
  | .ldVxDT x => formatXK 0xF#4 x 0x07#8
  | .ldVxK x => formatXK 0xF#4 x 0x0A#8
  | .ldDTVx x => formatXK 0xF#4 x 0x15#8
  | .ldSTVx x => formatXK 0xF#4 x 0x18#8
  | .addIVx x => formatXK 0xF#4 x 0x1E#8
  | .ldFVx x => formatXK 0xF#4 x 0x29#8
  | .ldBVx x => formatXK 0xF#4 x 0x33#8
  | .ldMemVx x => formatXK 0xF#4 x 0x55#8
  | .ldVxMem x => formatXK 0xF#4 x 0x65#8
  | .nop8 rest => formatA 0x8#4 rest
  | .nopE rest => formatA 0xE#4 rest
  | .nopF rest => formatA 0xF#4 rest

/-- The canonical encoding as it lies in memory. -/
def encodeBytes (i : Instr) : List Byte := wordBytes (encode i)

/-- A row of spec/opcode_table.json: the words it takes. -/
structure OpcodeRow where
  /-- the value of the tested bits -/
  pattern : Word
  /-- the tested bits -/
  mask : Word
  deriving DecidableEq, Repr

/-- The row takes the word: `op & mask = match` (R56, R60). -/
def rowHits (op : Word) (r : OpcodeRow) : Bool := op &&& r.mask == r.pattern

/-- The 38 rows of spec/opcode_table.json, in its order (R56, R60). -/
def opcodeRows : List OpcodeRow :=
  [⟨0x0000, 0xF00F⟩, ⟨0x000E, 0xF00F⟩, ⟨0x0000, 0xF000⟩, ⟨0x1000, 0xF000⟩, ⟨0x2000, 0xF000⟩, ⟨0x3000, 0xF000⟩] ++
  [⟨0x4000, 0xF000⟩, ⟨0x5000, 0xF000⟩, ⟨0x6000, 0xF000⟩, ⟨0x7000, 0xF000⟩, ⟨0x8000, 0xF00F⟩, ⟨0x8001, 0xF00F⟩] ++
  [⟨0x8002, 0xF00F⟩, ⟨0x8003, 0xF00F⟩, ⟨0x8004, 0xF00F⟩, ⟨0x8005, 0xF00F⟩, ⟨0x8006, 0xF00F⟩, ⟨0x8007, 0xF00F⟩] ++
  [⟨0x800E, 0xF00F⟩, ⟨0x9000, 0xF000⟩, ⟨0xA000, 0xF000⟩, ⟨0xB000, 0xF000⟩, ⟨0xC000, 0xF000⟩, ⟨0xD000, 0xF000⟩] ++
  [⟨0xE00E, 0xF00F⟩, ⟨0xE001, 0xF00F⟩, ⟨0xF007, 0xF0FF⟩, ⟨0xF00A, 0xF0FF⟩, ⟨0xF015, 0xF0FF⟩, ⟨0xF018, 0xF0FF⟩] ++
  [⟨0xF01E, 0xF0FF⟩, ⟨0xF029, 0xF0FF⟩, ⟨0xF033, 0xF0FF⟩, ⟨0xF055, 0xF0FF⟩, ⟨0xF065, 0xF0FF⟩] ++
  [⟨0x8000, 0xF000⟩, ⟨0xE000, 0xF000⟩, ⟨0xF000, 0xF000⟩]

/-- The place in the table of the first row that takes the word (R60: first hit wins). -/
def firstRow (op : Word) : Option Nat := opcodeRows.findIdx? (rowHits op)

/-- The place in the table of an instruction's own row. -/
def Instr.row : Instr → Nat
  | .cls => 0
  | .ret => 1
  | .sys _ => 2
  | .jp _ => 3
  | .call _ => 4
  | .seImm _ _ => 5
  | .sneImm _ _ => 6
  | .seReg _ _ => 7
  | .ldImm _ _ => 8
  | .addImm _ _ => 9
  | .ldReg _ _ => 10
  | .orReg _ _ => 11
  | .andReg _ _ => 12
  | .xorReg _ _ => 13
  | .addReg _ _ => 14
  | .subReg _ _ => 15
  | .shr _ _ => 16
  | .subnReg _ _ => 17
  | .shl _ _ => 18
  | .sneReg _ _ => 19
  | .ldI _ => 20
  | .jpV0 _ => 21
  | .rnd _ _ => 22
  | .drw _ _ _ => 23
  | .skp _ => 24
  | .sknp _ => 25
  | .ldVxDT _ => 26
  | .ldVxK _ => 27
  | .ldDTVx _ => 28
  | .ldSTVx _ => 29
  | .addIVx _ => 30
  | .ldFVx _ => 31
  | .ldBVx _ => 32
  | .ldMemVx _ => 33
  | .ldVxMem _ => 34
  | .nop8 _ => 35
  | .nopE _ => 36
  | .nopF _ => 37

/-- The decoder's answer for an opcode given as a number with bit 0 its least significant bit; the bits above `nbits`
are zero. The word is laid out in bytes as memory stores it and decoded from them. -/
def decodeTableWord (nbits w : Nat) : Option Instr :=
  match decodeBytes (wordBytes (BitVec.ofNat 16 (w % 2 ^ nbits))) with
  | .ok (i, _) => some i
  | .error _ => none

end Sys2Proof
end

