-- ==== Sys2Proof/Config.lean ====
section
/-! DEFINITION. The fixed parameters of the CHIP-8 CORE (spec 00_scope.md R6), the font (10_state.md R22) and the one
free value of the model, the random draw (10_state.md R21). -/

namespace Sys2Proof

/-- `MEM_SIZE`: bytes of memory. -/
abbrev Config.memSize : Nat := 4096

/-- `FONT_BASE`: the first address of the glyph font. -/
abbrev Config.fontBase : Nat := 0x050

/-- `FONT_SIZE`: bytes of font. -/
abbrev Config.fontSize : Nat := 80

/-- `GLYPH_SIZE`: bytes of one glyph. -/
abbrev Config.glyphSize : Nat := 5

/-- `LOAD_BASE`: the first address of the program image and the reset value of `PC`. -/
abbrev Config.loadBase : Nat := 0x200

/-- `IMAGE_MAX`: bytes of the largest program image. -/
abbrev Config.imageMax : Nat := 3584

/-- `STACK_CAP`: entries of the call stack. -/
abbrev Config.stackCap : Nat := 16

/-- `FONT`: 16 glyphs of 5 bytes, top row first, as the table of 10_state.md R22 gives them.
The values are the spec's from general knowledge (decision D6), UNVERIFIED: log entry 4. -/
def Config.font : List Byte :=
  [0xF0, 0x90, 0x90, 0x90, 0xF0] ++ [0x20, 0x60, 0x20, 0x20, 0x70] ++
  [0xF0, 0x10, 0xF0, 0x80, 0xF0] ++ [0xF0, 0x10, 0xF0, 0x10, 0xF0] ++
  [0x90, 0x90, 0xF0, 0x10, 0x10] ++ [0xF0, 0x80, 0xF0, 0x10, 0xF0] ++
  [0xF0, 0x80, 0xF0, 0x90, 0xF0] ++ [0xF0, 0x10, 0x20, 0x40, 0x40] ++
  [0xF0, 0x90, 0xF0, 0x90, 0xF0] ++ [0xF0, 0x90, 0xF0, 0x10, 0xF0] ++
  [0xF0, 0x90, 0xF0, 0x90, 0x90] ++ [0xE0, 0x90, 0xE0, 0x90, 0xE0] ++
  [0xF0, 0x80, 0x80, 0x80, 0xF0] ++ [0xE0, 0x90, 0x90, 0x90, 0xE0] ++
  [0xF0, 0x80, 0xF0, 0x80, 0xF0] ++ [0xF0, 0x80, 0xF0, 0x80, 0x80]

/-- `rand8()`: the byte the port `rand_in` delivers to the `n`-th execution of `RND`. The spec puts no law on the
draws (R21, R112), so this has no body: a statement about it holds for every sequence. Log entry 1. -/
opaque Config.randByte : Nat → Byte

end Sys2Proof
end

