-- ==== Sys2Proof/Machine/State.lean ====
section
/-! DEFINITION. The state of the CHIP-8 CORE as plain data (spec 10_state.md), the reasons a step can stop, the CORE's
own faults (60_exceptions.md R160), and the state after reset (10_state.md R29). -/

namespace Sys2Proof.Machine

/-- Memory: the cells that differ from the reset contents, in the canonical form of `Memory.wf`. -/
abbrev Memory := List Host.Cell

/-- The framebuffer, `FB[r][c]`: 32 rows (row 0 on top) of 64 pixels (column 0 on the left), `true` = on
(10_state.md R23). -/
abbrev Framebuffer := Vector (Vector Bool 64) 32

/-- The machine (10_state.md; INVENTORY.md lists each field with its rule). -/
structure State where
  /-- `V[0]` to `V[15]` (R10); `VF` is `V[15]` (R12) -/
  v : Vector Byte 16
  /-- `I` (R13) -/
  i : Word
  /-- `PC` (R14) -/
  pc : Word
  /-- `DT` (R15) -/
  dt : Byte
  /-- `ST` (R16) -/
  st : Byte
  /-- `SP`, the depth of the call stack, `0..16` (R18) -/
  sp : Fin 17
  /-- `STK[0]` to `STK[15]` (R18) -/
  stk : Vector Word 16
  /-- `mem[0]` to `mem[4095]` (R22) -/
  mem : Memory
  /-- `FB` (R23) -/
  fb : Framebuffer
  /-- `KEY[0]` to `KEY[15]`, `true` = pressed (R20) -/
  key : Vector Bool 16
  /-- `WAIT` (R19) -/
  wait : Bool
  /-- `WAIT_REG` (R19) -/
  waitReg : RegNum
  /-- `FAULTED` (R28) -/
  faulted : Bool
  /-- `FAULT_CAUSE` (R28) -/
  faultCause : BitVec 2
  /-- `FAULT_ADDR` (R28) -/
  faultAddr : Word
  /-- `FAULT_LEN` (R28) -/
  faultLen : BitVec 5
  /-- The model's own: how many random bytes have been drawn (log entry 1). -/
  draws : Nat
  deriving DecidableEq, Repr

/-- Why a step would stop without a next state. It has no constructor: the CORE's three faults are states
(60_exceptions.md R165, 40_cycle.md R71), and the spec gives every opcode an effect (30_encoding.md R58). Nobody
raises it, which is safe. -/
inductive Fault where
  deriving DecidableEq, Repr

/-- Why the model declines to give an instruction a meaning. -/
inductive Refusal where
  /-- An instruction whose meaning is not written yet, by its mnemonic; raised only by an arm of `exec`. Safe. -/
  | notModelled (mnemonic : String)
  deriving DecidableEq, Repr

/-- The CORE's own faults, `F(info)` of `raise F(info)` (60_exceptions.md R160). Raised by the memory contract and the
call stack; `State.raise` enters the faulted state with one. -/
inductive CoreFault where
  /-- `OutOfRange(addr, len)`: an access window that exceeds the memory (R161) -/
  | outOfRange (addr : Word) (len : Nat)
  /-- `StackOverflow`: a push on a full stack (R162) -/
  | stackOverflow
  /-- `StackUnderflow`: a pop from an empty stack (R163) -/
  | stackUnderflow
  deriving DecidableEq, Repr

/-- The state after `reset`, before the loader runs (10_state.md R29). Memory lists nothing: every byte reads as the
reset contents. `draws` starts at 0 by DESIGN CHOICE, log entry 1. -/
def State.reset : State where
  v := Vector.replicate 16 0
  i := 0
  pc := BitVec.ofNat 16 Config.loadBase
  dt := 0
  st := 0
  sp := 0
  stk := Vector.replicate 16 0
  mem := []
  fb := Vector.replicate 32 (Vector.replicate 64 false)
  key := Vector.replicate 16 false
  wait := false
  waitReg := 0
  faulted := false
  faultCause := 0
  faultAddr := 0
  faultLen := 0
  draws := 0

end Sys2Proof.Machine
end

