-- ==== Sys2Proof/Machine/Memory.lean ====
section
/-! DEFINITION. The memory and its contract (spec 20_memory.md): one byte, the bounds check, the six operations, and
the canonical form of the list of cells. -/

namespace Sys2Proof.Machine

/-- What an address the list does not name reads as: the reset contents, `FONT` from 0x050 and zero elsewhere
(10_state.md R22, R29). -/
def resetByte (a : Nat) : Byte :=
  if Config.fontBase ≤ a ∧ a < Config.fontBase + Config.fontSize then Config.font.getD (a - Config.fontBase) 0 else 0

/-- `mem[a]`, with no check. -/
def Memory.byteAt : Memory → Nat → Byte
  | [], a => resetByte a
  | (k, b) :: m, a => if k = a then b else Memory.byteAt m a

/-- A cell put at its place in the rising order of addresses. -/
def Memory.insertCell (a : Nat) (b : Byte) : Memory → Memory
  | [] => [(a, b)]
  | (k, c) :: m => if a < k then (a, b) :: (k, c) :: m else (k, c) :: Memory.insertCell a b m

/-- `mem[a] <- b`, with no check. The canonical form stays: the reset contents are not listed. -/
def Memory.put (m : Memory) (a : Nat) (b : Byte) : Memory :=
  let others := m.filter (fun cell => cell.1 != a)
  if b = resetByte a then others else Memory.insertCell a b others

/-- The addresses of the cells rise strictly from `lo` on, each is an address of the memory, and no cell holds what it
would read as unlisted. -/
def Memory.wfFrom : Nat → Memory → Bool
  | _, [] => true
  | lo, (k, b) :: m => decide (lo ≤ k) && decide (k < Config.memSize) && b != resetByte k && Memory.wfFrom (k + 1) m

/-- The canonical form of the memory. -/
def Memory.wf (m : Memory) : Bool := Memory.wfFrom 0 m

/-- The bounds check of the window `(addr, len)`: the exact sum, not reduced mod 2^16 (R32); the formula holds
unchanged for `len = 0` (R33). -/
def inRange (addr : Word) (len : Nat) : Bool := decide (addr.toNat + len ≤ Config.memSize)

/-- `len` bytes from address `a` on, lowest address first, with no check. -/
def Memory.bytesFrom (m : Memory) (a : Nat) : Nat → List Byte
  | 0 => []
  | len + 1 => m.byteAt a :: Memory.bytesFrom m (a + 1) len

/-- The bytes put from address `a` on, lowest address first, with no check. -/
def Memory.putBytes (m : Memory) (a : Nat) : List Byte → Memory
  | [] => m
  | b :: bs => Memory.putBytes (m.put a b) (a + 1) bs

/-- `readBlock(addr, len)`, the pseudocode's `MemRead` (R36). -/
def Memory.readBlock (m : Memory) (addr : Word) (len : Nat) : Except CoreFault (List Byte) :=
  if inRange addr len then .ok (m.bytesFrom addr.toNat len) else .error (.outOfRange addr len)

/-- `writeBlock(addr, bytes)`, the pseudocode's `MemWrite`: the whole window is checked before the first byte moves
(R37). -/
def Memory.writeBlock (m : Memory) (addr : Word) (bytes : List Byte) : Except CoreFault Memory :=
  if inRange addr bytes.length then .ok (m.putBytes addr.toNat bytes)
  else .error (.outOfRange addr bytes.length)

/-- `readByte(addr)` (R34). -/
def Memory.readByte (m : Memory) (addr : Word) : Except CoreFault Byte :=
  if inRange addr 1 then .ok (m.byteAt addr.toNat) else .error (.outOfRange addr 1)

/-- `writeByte(addr, val)` (R34). -/
def Memory.writeByte (m : Memory) (addr : Word) (val : Byte) : Except CoreFault Memory :=
  m.writeBlock addr [val]

/-- `readWord(addr)`: big-endian (R35, R39). -/
def Memory.readWord (m : Memory) (addr : Word) : Except CoreFault Word :=
  if inRange addr 2 then .ok (beWord (m.byteAt addr.toNat) (m.byteAt (addr.toNat + 1)))
  else .error (.outOfRange addr 2)

/-- `writeWord(addr, val)`: big-endian; part of the contract, used by no instruction (R35). -/
def Memory.writeWord (m : Memory) (addr : Word) (val : Word) : Except CoreFault Memory :=
  m.writeBlock addr (wordBytes val)

end Sys2Proof.Machine
end

