-- ==== Sys2Proof/Machine/Ops.lean ====
section
/-! DEFINITION. The named operations over the registers and the call stack (spec 00_scope.md R8, 10_state.md), and
entering the faulted state (60_exceptions.md R165). There is no return from a fault (R166): only reset leaves it. -/

namespace Sys2Proof.Machine

/-- `V[r]` (R10). -/
def State.reg (s : State) (r : RegNum) : Byte := s.v[r]

/-- `V[r] <- b` (R8, R10). -/
def State.setReg (s : State) (r : RegNum) (b : Byte) : State := { s with v := s.v.set r b }

/-- `I <- w` (R13). -/
def State.setI (s : State) (w : Word) : State := { s with i := w }

/-- `pc <- target` (R14). -/
def State.setPc (s : State) (target : Word) : State := { s with pc := target }

/-- `DT <- b` (R15). -/
def State.setDt (s : State) (b : Byte) : State := { s with dt := b }

/-- `ST <- b` (R16). -/
def State.setSt (s : State) (b : Byte) : State := { s with st := b }

/-- The memory replaced. -/
def State.setMem (s : State) (m : Memory) : State := { s with mem := m }

/-- The framebuffer replaced. -/
def State.setFb (s : State) (fb : Framebuffer) : State := { s with fb := fb }

/-- `PC <- PC + 2`, mod 2^16: the advance of the cycle (40_cycle.md R73) and the further step of a skip
(41_flow.md R94). -/
def State.stepPc (s : State) : State := s.setPc (s.pc + 2)

/-- A skip: `if cond then pc <- PC + 2` (41_flow.md R94). -/
def State.skipIf (s : State) (cond : Bool) : State := if cond then s.stepPc else s

/-- `Push(v)` (10_state.md R18): a failed push changes nothing. -/
def State.push (s : State) (v : Word) : Except CoreFault State :=
  if h : s.sp.val < Config.stackCap then
    .ok { s with stk := s.stk.set s.sp.val v h, sp := ⟨s.sp.val + 1, Nat.succ_lt_succ h⟩ }
  else .error .stackOverflow

/-- `top()`: the newest entry (10_state.md R18); no instruction uses it alone. -/
def State.top (s : State) : Except CoreFault Word :=
  if h : 0 < s.sp.val then .ok (s.stk[s.sp.val - 1]'(by have := s.sp.isLt; omega)) else .error .stackUnderflow

/-- `Pop()` (10_state.md R18): the newest entry and the state without it; the slot keeps its value. A failed pop
changes nothing. -/
def State.pop (s : State) : Except CoreFault (Word × State) :=
  match s.top with
  | .ok w => .ok (w, { s with sp := ⟨s.sp.val - 1, by have := s.sp.isLt; omega⟩ })
  | .error f => .error f

/-- The awaiting-key sub-state entered for register `x` (10_state.md R19). -/
def State.startWait (s : State) (x : RegNum) : State := { s with wait := true, waitReg := x }

/-- The end of a wait: `WAIT` and `WAIT_REG` are both cleared (10_state.md R19, 40_cycle.md R78). -/
def State.endWait (s : State) : State := { s with wait := false, waitReg := 0 }

/-- One fresh byte of the port `rand_in` (10_state.md R21): the free value of the draws taken so far, and the state
that has taken it. -/
def State.draw (s : State) : Byte × State := (Config.randByte s.draws, { s with draws := s.draws + 1 })

/-- A fault's cause code (60_exceptions.md R160). -/
def CoreFault.code : CoreFault → BitVec 2
  | .outOfRange _ _ => 1
  | .stackOverflow => 2
  | .stackUnderflow => 3

/-- What a fault records in `FAULT_ADDR` (60_exceptions.md R165). -/
def CoreFault.recordedAddr : CoreFault → Word
  | .outOfRange addr _ => addr
  | .stackOverflow => 0
  | .stackUnderflow => 0

/-- What a fault records in `FAULT_LEN` (60_exceptions.md R165); every window of the CORE is at most 16 bytes. -/
def CoreFault.recordedLen : CoreFault → BitVec 5
  | .outOfRange _ len => BitVec.ofNat 5 len
  | .stackOverflow => 0
  | .stackUnderflow => 0

/-- `raise F(info)`: the entry of the faulted state, and nothing else (60_exceptions.md R165). -/
def State.raise (s : State) (f : CoreFault) : State :=
  { s with faulted := true, faultCause := f.code, faultAddr := f.recordedAddr, faultLen := f.recordedLen }

/-- The end of an instruction that makes one check before its first write (60_exceptions.md R164): the new state if
the check held, otherwise the fault raised in the state before. -/
def State.settle (s : State) (r : Except CoreFault State) : Host.Outcome State Fault Refusal :=
  match r with
  | .ok t => .next t
  | .error f => .next (s.raise f)

end Sys2Proof.Machine
end

