-- ==== Sys2Proof/Machine/Operands.lean ====
section
/-! DEFINITION. The operand forms (spec 30_encoding.md R53, 43_index_memory.md R126): immediates as they stand, the
glyph address, the key index, BCD digits, and the register block `V0..Vx`. -/

namespace Sys2Proof.Machine

/-- `zext_16(nnn)` (30_encoding.md R53). -/
def zextAddr (nnn : Addr12) : Word := nnn.setWidth 16

/-- `zext_16` of an 8-bit value (30_encoding.md R53). -/
def zextByte (b : Byte) : Word := b.setWidth 16

/-- The target of `JP V0, nnn`: `trunc_16(zext_16(nnn) + zext_16(V[0]))` (41_flow.md R98). -/
def indexedTarget (nnn : Addr12) (v0 : Byte) : Word := zextAddr nnn + zextByte v0

/-- `FONT_BASE + GLYPH_SIZE * vx`, the whole byte, unmasked (43_index_memory.md R122). -/
def glyphAddr (vx : Byte) : Word := BitVec.ofNat 16 (Config.fontBase + Config.glyphSize * vx.toNat)

/-- `k = vx[3:0]` (45_timers_input.md R146). -/
def keyIndex (vx : Byte) : KeyNum := nibbleIndex (vx.extractLsb' 0 4)

/-- Hundreds, tens and ones, one digit a byte (43_index_memory.md R123). -/
def bcdDigits (vx : Byte) : List Byte :=
  [BitVec.ofNat 8 (vx.toNat / 100), BitVec.ofNat 8 (vx.toNat / 10 % 10), BitVec.ofNat 8 (vx.toNat % 10)]

/-- `x + 1`, the count of registers `V0..Vx` (43_index_memory.md R124, R125). -/
def blockLen (x : RegNum) : Nat := x.val + 1

/-- `[V[0], ..., V[x]]` (43_index_memory.md R124). -/
def State.regBlock (s : State) (x : RegNum) : List Byte := s.v.toList.take (blockLen x)

/-- Bytes written into the registers from number `j` on: `V[j] <- b[0]`, `V[j+1] <- b[1]`, ... -/
def loadRegsFrom (v : Vector Byte 16) (j : Nat) : List Byte → Vector Byte 16
  | [] => v
  | b :: bs => loadRegsFrom (v.setIfInBounds j b) (j + 1) bs

/-- `for j: V[j] <- b[j]` (43_index_memory.md R125). -/
def State.loadRegs (s : State) (bytes : List Byte) : State := { s with v := loadRegsFrom s.v 0 bytes }

end Sys2Proof.Machine
end

