-- ==== Sys2Proof/Machine/TimersInput.lean ====
section
/-! DEFINITION. Timer access, key skips, wait for key (spec 45_timers_input.md). The timer decay of the same cycle comes
after (40_cycle.md R77). -/

namespace Sys2Proof.Machine

/-- `KEY[k]` (10_state.md R20). -/
def State.keyDown (s : State) (k : KeyNum) : Bool := s.key[k]

/-- The key indices in rising order. -/
def keyNums : List KeyNum := [0, 1, 2, 3, 4, 5, 6, 7, 8, 9, 10, 11, 12, 13, 14, 15]

/-- The least `k` with `KEY[k] = 1`, if there is one (R143, 40_cycle.md R78). -/
def State.leastKey (s : State) : Option KeyNum := keyNums.find? s.keyDown

/-- A key's index as the byte a register takes. -/
def keyByteOf (k : KeyNum) : Byte := BitVec.ofNat 8 k.val

/-- `SKP Vx` (R140). -/
def execSkp (x : RegNum) (s : State) : Host.Outcome State Fault Refusal :=
  .next (s.skipIf (s.keyDown (keyIndex (s.reg x))))

/-- `SKNP Vx` (R141). -/
def execSknp (x : RegNum) (s : State) : Host.Outcome State Fault Refusal :=
  .next (s.skipIf (!s.keyDown (keyIndex (s.reg x))))

/-- `LD Vx, DT` (R142). -/
def execLdVxDT (x : RegNum) (s : State) : Host.Outcome State Fault Refusal := .next (s.setReg x s.dt)

/-- `LD Vx, K` in its first cycle (R143): it completes at once if a key is down, else it enters the awaiting-key
sub-state. -/
def execLdVxK (x : RegNum) (s : State) : Host.Outcome State Fault Refusal :=
  match s.leastKey with
  | some k => .next (s.setReg x (keyByteOf k))
  | none => .next (s.startWait x)

/-- `LD DT, Vx` (R144). -/
def execLdDTVx (x : RegNum) (s : State) : Host.Outcome State Fault Refusal := .next (s.setDt (s.reg x))

/-- `LD ST, Vx` (R145). -/
def execLdSTVx (x : RegNum) (s : State) : Host.Outcome State Fault Refusal := .next (s.setSt (s.reg x))

end Sys2Proof.Machine
end

