-- ==== Sys2Proof/Machine/Cycle.lean ====
section
/-! DEFINITION. The execution cycle (spec 40_cycle.md): fetch, advance, dispatch, timer decay, and the retry of a
pending wait. `Step.lean` calls `cycle` with the machine's dispatch. -/

namespace Sys2Proof.Machine

/-- `op <- MemRead(PC, 2)`, big-endian (R72). -/
def State.fetch (s : State) : Except CoreFault Word := s.mem.readWord s.pc

/-- A timer's decay: one less, and 0 stays 0 (R76). -/
def decayed (t : Byte) : Byte := if t = 0 then 0 else t - 1

/-- Timer decay, the last step of a cycle (R76). -/
def State.decayTimers (s : State) : State := (s.setDt (decayed s.dt)).setSt (decayed s.st)

/-- `retry_wait()` (R78): no fetch, no `PC` change. -/
def State.retryWait (s : State) : State :=
  match s.leastKey with
  | some k => (s.setReg s.waitReg (keyByteOf k)).endWait
  | none => s

/-- After dispatch: a raise ends the cycle at once, otherwise the timers decay (R70, R75, R76). -/
def finishCycle (r : Host.Outcome State Fault Refusal) : Host.Outcome State Fault Refusal :=
  match r with
  | .next t => .next (if t.faulted then t else t.decayTimers)
  | .fault f => .fault f
  | .refused f => .refused f

/-- `cycle()` over a dispatch (R70): nothing in a faulted machine (R71), a retry in the awaiting-key sub-state (R78),
otherwise fetch (R72), advance (R73), dispatch (R74) and decay (R76). -/
def cycle (dispatch : Instr → State → Host.Outcome State Fault Refusal) (s : State) :
    Host.Outcome State Fault Refusal :=
  if s.faulted then .next s
  else if s.wait then .next s.retryWait.decayTimers
  else
    match s.fetch with
    | .error f => .next (s.raise f)
    | .ok op => finishCycle (dispatch (decodeWord op) s.stepPc)

/-- The state made ready to fetch: not faulted, not waiting, and `PC` at a window that exists; a state that is ready
already stays as it is. -/
def State.readyToFetch (s : State) : State :=
  let t := if s.faulted then { s with faulted := false, faultCause := 0, faultAddr := 0, faultLen := 0 } else s
  let u := if t.wait then t.endWait else t
  if inRange u.pc 2 then u else u.setPc (BitVec.ofNat 16 Config.loadBase)

/-- An opcode stored where the next cycle fetches, in a state made ready to fetch it. -/
def State.placeOpcode (s : State) (op : Word) : State :=
  let t := s.readyToFetch
  t.setMem (t.mem.putBytes t.pc.toNat (wordBytes op))

end Sys2Proof.Machine
end

