-- ==== Sys2Proof/Machine/Flags.lean ====
section
/-! DEFINITION. The values written to `VF` and the order of the two writes (spec 42_alu.md R100, R107 to R111). -/

namespace Sys2Proof.Machine

/-- A flag as the byte 0 or 1. -/
def flagByte (b : Bool) : Byte := if b then 1 else 0

/-- `sum = vx + vy`, a 9-bit value (42_alu.md R107). -/
def sum9 (vx vy : Byte) : BitVec 9 := vx.setWidth 9 + vy.setWidth 9

/-- `sum[8]`, the carry out (42_alu.md R107). -/
def carryOut (vx vy : Byte) : Bool := (sum9 vx vy).getLsbD 8

/-- `sum[7:0]` (42_alu.md R107). -/
def sumLow (vx vy : Byte) : Byte := (sum9 vx vy).setWidth 8

/-- The minuend is strictly greater than the subtrahend, unsigned (42_alu.md R108, R110). -/
def strictlyGreater (minuend subtrahend : Byte) : Bool := decide (subtrahend.toNat < minuend.toNat)

/-- Bit 0, the bit a right shift shifts out (42_alu.md R109). -/
def rightShiftedOut (vx : Byte) : Bool := vx.getLsbD 0

/-- Bit 7, the bit a left shift shifts out (42_alu.md R111). -/
def leftShiftedOut (vx : Byte) : Bool := vx.getLsbD 7

/-- `VF` (10_state.md R12). -/
def vf : RegNum := 15

/-- First `V[15] <- flag`, then `V[x] <- result` (42_alu.md R100): with `x = F` the result stays. -/
def State.setFlagThenReg (s : State) (flag : Bool) (x : RegNum) (result : Byte) : State :=
  (s.setReg vf (flagByte flag)).setReg x result

end Sys2Proof.Machine
end

