-- ==== Sys2Proof/Machine/Alu.lean ====
section
/-! DEFINITION. Register loads, arithmetic, logic, shifts, random (spec 42_alu.md). Every operand is read from the
state before the instruction (R100). -/

namespace Sys2Proof.Machine

/-- `LD Vx, kk` (R101). -/
def execLdImm (x : RegNum) (kk : Byte) (s : State) : Host.Outcome State Fault Refusal := .next (s.setReg x kk)

/-- `ADD Vx, kk` (R102): wraps, no flag. -/
def execAddImm (x : RegNum) (kk : Byte) (s : State) : Host.Outcome State Fault Refusal :=
  .next (s.setReg x (s.reg x + kk))

/-- `LD Vx, Vy` (R103). -/
def execLdReg (x y : RegNum) (s : State) : Host.Outcome State Fault Refusal := .next (s.setReg x (s.reg y))

/-- `OR Vx, Vy` (R104): no flag. -/
def execOr (x y : RegNum) (s : State) : Host.Outcome State Fault Refusal := .next (s.setReg x (s.reg x ||| s.reg y))

/-- `AND Vx, Vy` (R105): no flag. -/
def execAnd (x y : RegNum) (s : State) : Host.Outcome State Fault Refusal := .next (s.setReg x (s.reg x &&& s.reg y))

/-- `XOR Vx, Vy` (R106): no flag. -/
def execXor (x y : RegNum) (s : State) : Host.Outcome State Fault Refusal := .next (s.setReg x (s.reg x ^^^ s.reg y))

/-- `ADD Vx, Vy` (R107): `VF` is the carry out. -/
def execAddReg (x y : RegNum) (s : State) : Host.Outcome State Fault Refusal :=
  .next (s.setFlagThenReg (carryOut (s.reg x) (s.reg y)) x (sumLow (s.reg x) (s.reg y)))

/-- `SUB Vx, Vy` (R108): minuend `V[x]`. -/
def execSub (x y : RegNum) (s : State) : Host.Outcome State Fault Refusal :=
  .next (s.setFlagThenReg (strictlyGreater (s.reg x) (s.reg y)) x (s.reg x - s.reg y))

/-- `SHR Vx` (R109): `V[y]` is not read. -/
def execShr (x _y : RegNum) (s : State) : Host.Outcome State Fault Refusal :=
  .next (s.setFlagThenReg (rightShiftedOut (s.reg x)) x (s.reg x >>> 1))

/-- `SUBN Vx, Vy` (R110): minuend `V[y]`, destination `V[x]`. -/
def execSubn (x y : RegNum) (s : State) : Host.Outcome State Fault Refusal :=
  .next (s.setFlagThenReg (strictlyGreater (s.reg y) (s.reg x)) x (s.reg y - s.reg x))

/-- `SHL Vx` (R111): `V[y]` is not read. -/
def execShl (x _y : RegNum) (s : State) : Host.Outcome State Fault Refusal :=
  .next (s.setFlagThenReg (leftShiftedOut (s.reg x)) x (s.reg x <<< 1))

/-- `RND Vx, kk` (R112): one fresh draw AND `kk`. -/
def execRnd (x : RegNum) (kk : Byte) (s : State) : Host.Outcome State Fault Refusal :=
  .next (s.draw.2.setReg x (s.draw.1 &&& kk))

end Sys2Proof.Machine
end

