-- ==== Sys2Proof/Machine/Display.lean ====
section
/-! DEFINITION. Framebuffer clear and XOR-sprite compositor (spec 44_display.md). -/

namespace Sys2Proof.Machine

/-- `FB[r][c]` (10_state.md R23). -/
def Framebuffer.pixel (fb : Framebuffer) (r : Fin 32) (c : Fin 64) : Bool := fb[r][c]

/-- `FB[r][c] <- FB[r][c] ^ 1`. -/
def Framebuffer.toggle (fb : Framebuffer) (r : Fin 32) (c : Fin 64) : Framebuffer := fb.set r (fb[r].set c (!fb[r][c]))

/-- `clear()`: all pixels off (R130). -/
def Framebuffer.clear : Framebuffer := Vector.replicate 32 (Vector.replicate 64 false)

/-- A draw in progress: the framebuffer, and `coll`. -/
structure Drawing where
  /-- the framebuffer so far -/
  fb : Framebuffer
  /-- whether a pixel went from on to off so far -/
  coll : Bool
  deriving DecidableEq, Repr

/-- One plotted pixel: it collides if it is on, and is toggled (R132). -/
def plotPixel (d : Drawing) (py : Fin 32) (px : Fin 64) : Drawing :=
  { fb := d.fb.toggle py px, coll := d.coll || d.fb.pixel py px }

/-- The columns of a sprite row, left to right. -/
def spriteColumns : List Nat := [0, 1, 2, 3, 4, 5, 6, 7]

/-- One row of the sprite: bit 7 is its column 0; each pixel wraps, `px = (xs + c) mod 64`, `py = (ys + r) mod 32`
(R132). -/
def plotRow (d : Drawing) (xs ys : Byte) (r : Nat) (row : Byte) : Drawing :=
  spriteColumns.foldl
    (fun d c => if row.getLsbD (7 - c) then plotPixel d (Fin.ofNat 32 (ys.toNat + r)) (Fin.ofNat 64 (xs.toNat + c)) else d)
    d

/-- The rows of the sprite from number `r` on. -/
def plotRows (d : Drawing) (xs ys : Byte) (r : Nat) : List Byte → Drawing
  | [] => d
  | row :: rows => plotRows (plotRow d xs ys r row) xs ys (r + 1) rows

/-- `drawSprite(x, y, rows, collisionFlag)`: the framebuffer after it, and the collision flag, which starts at 0
(R130, R132). -/
def drawSprite (fb : Framebuffer) (xs ys : Byte) (rows : List Byte) : Drawing :=
  plotRows { fb := fb, coll := false } xs ys 0 rows

/-- `CLS` (R131). -/
def execCls (s : State) : Host.Outcome State Fault Refusal := .next (s.setFb Framebuffer.clear)

/-- `DRW Vx, Vy, n` (R132): one block read of `n` bytes at `I` first, then the pixels, then `VF`. -/
def execDrw (x y : RegNum) (n : Nibble) (s : State) : Host.Outcome State Fault Refusal :=
  s.settle ((s.mem.readBlock s.i n.toNat).map (fun rows =>
    let d := drawSprite s.fb (s.reg x) (s.reg y) rows
    (s.setFb d.fb).setReg vf (flagByte d.coll)))

end Sys2Proof.Machine
end

