-- ==== Sys2Proof/Machine/IndexMemory.lean ====
section
/-! DEFINITION. Address register, BCD store, register block store and load (spec 43_index_memory.md). `I` is never
changed by an access (R126). -/

namespace Sys2Proof.Machine

/-- `LD I, nnn` (R120). -/
def execLdI (nnn : Addr12) (s : State) : Host.Outcome State Fault Refusal := .next (s.setI (zextAddr nnn))

/-- `ADD I, Vx` (R121): wraps at 65536, no flag. -/
def execAddIVx (x : RegNum) (s : State) : Host.Outcome State Fault Refusal := .next (s.setI (s.i + zextByte (s.reg x)))

/-- `LD F, Vx` (R122): no memory access. -/
def execLdFVx (x : RegNum) (s : State) : Host.Outcome State Fault Refusal := .next (s.setI (glyphAddr (s.reg x)))

/-- `LD B, Vx` (R123): one block write of three bytes at `I`. -/
def execLdBVx (x : RegNum) (s : State) : Host.Outcome State Fault Refusal :=
  s.settle ((s.mem.writeBlock s.i (bcdDigits (s.reg x))).map s.setMem)

/-- `LD [I], Vx` (R124): one block write of `V0..Vx` at `I`. -/
def execLdMemVx (x : RegNum) (s : State) : Host.Outcome State Fault Refusal :=
  s.settle ((s.mem.writeBlock s.i (s.regBlock x)).map s.setMem)

/-- `LD Vx, [I]` (R125): one block read of `x + 1` bytes at `I` into `V0..Vx`. -/
def execLdVxMem (x : RegNum) (s : State) : Host.Outcome State Fault Refusal :=
  s.settle ((s.mem.readBlock s.i (blockLen x)).map s.loadRegs)

end Sys2Proof.Machine
end

