-- ==== Sys2Proof/Machine/NoOp.lean ====
section
/-! DEFINITION. The no-op: `SYS nnn` and the unmapped slots of families 8, E and F (spec 30_encoding.md R58, R59). -/

namespace Sys2Proof.Machine

/-- The dispatch step changes nothing at all (30_encoding.md R59). -/
def noEffect (s : State) : Host.Outcome State Fault Refusal := .next s

/-- `SYS nnn`: the operand is ignored (41_flow.md R90). -/
def execSys (_nnn : Addr12) (s : State) : Host.Outcome State Fault Refusal := noEffect s

/-- `NOP.8` (30_encoding.md R58). -/
def execNop8 (_rest : Addr12) (s : State) : Host.Outcome State Fault Refusal := noEffect s

/-- `NOP.E` (30_encoding.md R58). -/
def execNopE (_rest : Addr12) (s : State) : Host.Outcome State Fault Refusal := noEffect s

/-- `NOP.F` (30_encoding.md R58). -/
def execNopF (_rest : Addr12) (s : State) : Host.Outcome State Fault Refusal := noEffect s

end Sys2Proof.Machine
end

