-- ==== Sys2Proof/Machine/Step.lean ====
section
/-! DEFINITION. One step: one cycle of the CORE (spec 40_cycle.md R70) over `exec`. -/

namespace Sys2Proof.Machine

/-- One assertion of the port `step` (40_cycle.md R70). -/
def step (s : State) : Host.Outcome State Fault Refusal := cycle exec s

/-- The opcode `w` (bit 0 its least significant bit, the bits above `nbits` zero) stored where `step` fetches next, in
a state that fetches. A state that is faulted, waiting, or at a `PC` with no two bytes of memory is first made ready;
otherwise only the two bytes change. Log entry 19. -/
def State.withFetchWord (s : State) (nbits w : Nat) : State := s.placeOpcode (BitVec.ofNat 16 (w % 2 ^ nbits))

end Sys2Proof.Machine
end

