-- ==== Sys2Proof/Machine/Ports.lean ====
section
/-! DEFINITION. The ports to the outside agents (spec 10_state.md R24 to R27, 70_reset_and_hazards.md R180, R184,
R190): what the loader, the input source, the renderer and the driver can do to the CORE between cycles. -/

namespace Sys2Proof.Machine

/-- `press(k)`: `KEY[k] <- 1` (10_state.md R26). -/
def State.press (s : State) (k : KeyNum) : State := { s with key := s.key.set k true }

/-- `release(k)`: `KEY[k] <- 0` (10_state.md R26). -/
def State.release (s : State) (k : KeyNum) : State := { s with key := s.key.set k false }

/-- `reset` asserted in any state (70_reset_and_hazards.md R180): the reset state; the random source is untouched
(10_state.md R21, R29). -/
def State.resetPort (s : State) : State := { State.reset with draws := s.draws }

/-- The whole image written by the loader from 0x200 on, byte `j` at `0x200 + j`; an image longer than 3584 bytes is
refused and never reaches the CORE (10_state.md R25, 70_reset_and_hazards.md R184). The moves that do it are
`imageMoves`. -/
def State.loadImage (s : State) (image : List Byte) : Option State :=
  if image.length ≤ Config.imageMax then some (s.setMem (s.mem.putBytes Config.loadBase image)) else none

/-- The output ports of 10_state.md R24 and R27, the renderer's view included. -/
structure Outputs where
  /-- `fb_pixel` for every `fb_row` and `fb_col` -/
  fb : Framebuffer
  /-- `st_value` -/
  stValue : Byte
  /-- `dt_value` -/
  dtValue : Byte
  /-- `waiting` -/
  waiting : Bool
  /-- `faulted` -/
  faulted : Bool
  /-- `fault_cause` -/
  faultCause : BitVec 2
  /-- `fault_addr` -/
  faultAddr : Word
  /-- `fault_len` -/
  faultLen : BitVec 5
  deriving DecidableEq, Repr

/-- What the outside sees between cycles (10_state.md R27). -/
def State.outputs (s : State) : Outputs where
  fb := s.fb
  stValue := s.st
  dtValue := s.dt
  waiting := s.wait
  faulted := s.faulted
  faultCause := s.faultCause
  faultAddr := s.faultAddr
  faultLen := s.faultLen

/-- The CORE with what decides which moves the outside has: whether a cycle has been issued since reset
(10_state.md R25). -/
structure Env where
  /-- the CORE -/
  core : State
  /-- a `step` has been asserted since the last `reset` -/
  started : Bool
  deriving DecidableEq, Repr

/-- The moves of the outside agents (10_state.md R24). -/
inductive Move where
  /-- `reset` -/
  | reset
  /-- `step` -/
  | step
  /-- `ld_we` with `ld_addr` and `ld_data` -/
  | load (addr : Addr12) (data : Byte)
  /-- `key_press` with `key_idx` -/
  | press (k : KeyNum)
  /-- `key_release` with `key_idx` -/
  | release (k : KeyNum)
  deriving DecidableEq, Repr

/-- One move; `none` where the spec gives the agent no such move: a load after the first `step`, or below 0x200
(10_state.md R25, 70_reset_and_hazards.md R190, decision D24). -/
def Env.move (e : Env) : Move → Option Env
  | .reset => some { core := e.core.resetPort, started := false }
  | .step =>
    match Sys2Proof.Machine.step e.core with
    | .next t => some { core := t, started := true }
    | .fault _ => none
    | .refused _ => none
  | .load addr data =>
    if e.started = false ∧ Config.loadBase ≤ addr.toNat then
      some { e with core := e.core.setMem (e.core.mem.put addr.toNat data) }
    else none
  | .press k => some { e with core := e.core.press k }
  | .release k => some { e with core := e.core.release k }

/-- Moves one after another; `none` if one of them is no move. -/
def Env.moves (e : Env) : List Move → Option Env
  | [] => some e
  | m :: ms =>
    match e.move m with
    | some e' => e'.moves ms
    | none => none

/-- The loader's moves for bytes from address `a` on, lowest address first. -/
def loadMovesFrom (a : Nat) : List Byte → List Move
  | [] => []
  | b :: bs => .load (BitVec.ofNat 12 a) b :: loadMovesFrom (a + 1) bs

/-- The loader's moves for a whole image, byte `j` to `0x200 + j` (10_state.md R25). -/
def imageMoves (image : List Byte) : List Move := loadMovesFrom Config.loadBase image

end Sys2Proof.Machine
end

