-- ==== Sys2Proof/Safety.lean ====
section
/-! DEFINITION. The terms claims use: the parts of the state one by one, what a change leaves alone, the invariant of
the machine, and what counts as a safe run. -/

namespace Sys2Proof.Machine

/-- The parts of the state, each observable on its own (spec 10_state.md): one per register, stack slot, byte of
memory, pixel, key and status field. -/
inductive Part where
  /-- `V[r]` -/
  | v (r : RegNum)
  /-- `I` -/
  | i
  /-- `PC` -/
  | pc
  /-- `DT` -/
  | dt
  /-- `ST` -/
  | st
  /-- `SP` -/
  | sp
  /-- `STK[k]` -/
  | stk (k : Fin 16)
  /-- `mem[a]` -/
  | mem (a : Nat)
  /-- `FB[r][c]` -/
  | pixel (r : Fin 32) (c : Fin 64)
  /-- `KEY[k]` -/
  | key (k : KeyNum)
  /-- `WAIT` -/
  | wait
  /-- `WAIT_REG` -/
  | waitReg
  /-- `FAULTED` -/
  | faulted
  /-- `FAULT_CAUSE` -/
  | faultCause
  /-- `FAULT_ADDR` -/
  | faultAddr
  /-- `FAULT_LEN` -/
  | faultLen
  /-- the model's own count of draws -/
  | draws
  deriving DecidableEq, Repr

/-- The value a part holds, as a number; a bit is 0 or 1. -/
def State.view (s : State) : Part → Nat
  | .v r => (s.reg r).toNat
  | .i => s.i.toNat
  | .pc => s.pc.toNat
  | .dt => s.dt.toNat
  | .st => s.st.toNat
  | .sp => s.sp.val
  | .stk k => (s.stk[k]).toNat
  | .mem a => (s.mem.byteAt a).toNat
  | .pixel r c => (s.fb.pixel r c).toNat
  | .key k => (s.keyDown k).toNat
  | .wait => s.wait.toNat
  | .waitReg => s.waitReg.val
  | .faulted => s.faulted.toNat
  | .faultCause => s.faultCause.toNat
  | .faultAddr => s.faultAddr.toNat
  | .faultLen => s.faultLen.toNat
  | .draws => s.draws

/-- Every part that is not among those named holds in `t` what it held in `s`. -/
def KeepsAllBut (named : Part → Prop) (s t : State) : Prop := ∀ p, ¬ named p → t.view p = s.view p

/-- The parts of the fault record (10_state.md R28). -/
def Part.ofFault : Part → Prop
  | .faulted | .faultCause | .faultAddr | .faultLen => True
  | .v _ | .i | .pc | .dt | .st | .sp | .stk _ | .mem _ | .pixel _ _ | .key _ | .wait | .waitReg | .draws => False

/-- The bytes of the window `(addr, len)`. -/
def Part.inWindow (addr : Word) (len : Nat) : Part → Prop
  | .mem a => addr.toNat ≤ a ∧ a < addr.toNat + len
  | .v _ | .i | .pc | .dt | .st | .sp | .stk _ | .pixel _ _ | .key _ | .wait | .waitReg | .faulted | .faultCause
  | .faultAddr | .faultLen | .draws => False

/-- The pixels. -/
def Part.ofScreen : Part → Prop
  | .pixel _ _ => True
  | .v _ | .i | .pc | .dt | .st | .sp | .stk _ | .mem _ | .key _ | .wait | .waitReg | .faulted | .faultCause
  | .faultAddr | .faultLen | .draws => False

/-- `t` is `s` with a fault raised: the record holds the code, address and length, and nothing else changed
(60_exceptions.md R165). -/
structure Raised (code addr len : Nat) (s t : State) : Prop where
  /-- `FAULTED = 1` -/
  faulted : t.view .faulted = 1
  /-- `FAULT_CAUSE` -/
  cause : t.view .faultCause = code
  /-- `FAULT_ADDR` -/
  addr : t.view .faultAddr = addr
  /-- `FAULT_LEN` -/
  len : t.view .faultLen = len
  /-- everything else -/
  frame : KeepsAllBut Part.ofFault s t

/-- The invariant of the machine, which reset meets and every step keeps. -/
structure State.Inv (s : State) : Prop where
  /-- the memory is in its canonical form -/
  memWf : s.mem.wf = true
  /-- `PC` is a value a run can reach (10_state.md R14) -/
  pcBound : s.pc.toNat ≤ 0x10FE
  /-- a stack slot holds an advanced `PC` (10_state.md R14) -/
  stkBound : ∀ k : Fin 16, (s.stk[k]).toNat ≤ 0x1000
  /-- the record is zero until a fault is raised (10_state.md R28) -/
  recordZero : s.faulted = false → s.faultCause = 0 ∧ s.faultAddr = 0 ∧ s.faultLen = 0
  /-- a recorded fault has a cause of 60_exceptions.md R160 -/
  causeGiven : s.faulted = true → s.faultCause ≠ 0
  /-- a recorded `OutOfRange` names a window that exceeds the memory (60_exceptions.md R161) -/
  recordTrue : s.faulted = true → s.faultCause = 1 → Config.memSize < s.faultAddr.toNat + s.faultLen.toNat
  /-- the other two record nothing beyond the cause (60_exceptions.md R162, R163) -/
  recordEmpty : s.faulted = true → s.faultCause ≠ 1 → s.faultAddr = 0 ∧ s.faultLen = 0
  /-- a waiting machine has not faulted (40_cycle.md R78) -/
  waitRuns : s.wait = true → s.faulted = false
  /-- outside a wait `WAIT_REG` is cleared (10_state.md R19) -/
  waitRegClear : s.wait = false → s.waitReg = 0

/-- The sprite bit that falls on pixel `(r, c)` when `rows` is drawn at column `xs` and row `ys`: the row and column of
the sprite are the pixel's distances from the origin, mod 32 and mod 64 (44_display.md R132, R133). -/
def spriteCovers (xs ys : Byte) (rows : List Byte) (r : Fin 32) (c : Fin 64) : Bool :=
  let dr := (r.val + 256 - ys.toNat) % 32
  let dc := (c.val + 256 - xs.toNat) % 64
  decide (dc < 8) && (rows.getD dr 0).getLsbD (7 - dc)

/-- The machine has raised no fault. -/
def State.Safe (s : State) : Prop := s.faulted = false

/-- `n` cycles from `s` raise no fault. -/
def SafeRun (n : Nat) (s : State) : Prop := ∃ t, Host.Core.run Sys2Proof.core n s = .next t ∧ t.Safe

end Sys2Proof.Machine
end

