-- ==== Sys2Proof/Certificates/Slice0/Obligations.lean ====
section
/-! DEFINITION. The statements for the provers. Each is about every state unless it says otherwise; `exec i s` is the
dispatch step, so `PC` of `s` is already advanced (spec 40_cycle.md R73). Wherever a statement gives an opcode's value,
that value is the spec's decision D5 (log entry 5); where it gives a fault, that nothing else changes and what the
record holds are D16 and D26 (log entries 13 and 16), and that a window may end on the last byte is D3 (log entry
10). -/

open Sys2Proof Sys2Proof.Machine

/-! ### Encoding -/

/-- Fourteen words written out from the spec's table (30_encoding.md R56, R57), of nine families, decode to the
instructions they stand for. The opcode values are the spec's decision D5, log entry 5. -/
def Obligations.SampleWordsDecode : Prop :=
  decodeWord 0x00E0#16 = .cls ∧ decodeWord 0x0ABE#16 = .ret ∧ decodeWord 0x0123#16 = .sys 0x123#12 ∧
    decodeWord 0x1ABC#16 = .jp 0xABC#12 ∧ decodeWord 0x2204#16 = .call 0x204#12 ∧
    decodeWord 0x3A42#16 = .seImm 10 0x42#8 ∧ decodeWord 0x5AB7#16 = .seReg 10 11 ∧
    decodeWord 0x8AB5#16 = .subReg 10 11 ∧ decodeWord 0x8AB8#16 = .nop8 0xAB8#12 ∧
    decodeWord 0xD123#16 = .drw 1 2 0x3#4 ∧ decodeWord 0xE49E#16 = .skp 4 ∧ decodeWord 0xEAF1#16 = .sknp 10 ∧
    decodeWord 0xFA65#16 = .ldVxMem 10 ∧ decodeWord 0xF175#16 = .nopF 0x175#12

/-- Decode and encode agree: no bit of an operand is dropped, for every well-formed instruction (30_encoding.md
R51 to R58). -/
def Obligations.DecodeOfEncode : Prop := ∀ i : Instr, i.WellFormed → decodeWord (encode i) = i

/-- Every opcode has a meaning, and it is a well-formed instruction (30_encoding.md R58: decode is total). -/
def Obligations.DecodeIsWellFormed : Prop := ∀ op : Word, (decodeWord op).WellFormed

/-- Outside families 0, 5, 9 and E encoding gives the opcode back bit for bit. Of the bits 30_encoding.md R57 calls
ignored that leaves the `y` of `8xy6` and `8xyE`; that `y` and the low twelve bits of the no-op slots of families 8 and
F come back because the syntax carries them, which is the model's DESIGN CHOICE, log entry 20. -/
def Obligations.EncodeOfDecode : Prop :=
  ∀ op : Word, (∀ f ∈ [0x0, 0x5, 0x9, 0xE], op.toNat / 4096 ≠ f) → encode (decodeWord op) = op

/-- The two-level multiplexer and the ordered table agree: the first row of spec/opcode_table.json that takes a word is
the row of the instruction decoded from it (30_encoding.md R56, R60). -/
def Obligations.TableFirstHit : Prop := ∀ op : Word, firstRow op = some (decodeWord op).row

/-- The unmapped opcodes are exactly those of the table of 30_encoding.md R58. -/
def Obligations.UnmappedOpcodes : Prop :=
  ∀ op : Word,
    ((∃ nnn, decodeWord op = .sys nnn) ↔ op.toNat / 4096 = 0x0 ∧ op.toNat % 16 ∉ [0x0, 0xE]) ∧
    ((∃ r, decodeWord op = .nop8 r) ↔ op.toNat / 4096 = 0x8 ∧ op.toNat % 16 ∈ [0x8, 0x9, 0xA, 0xB, 0xC, 0xD, 0xF]) ∧
    ((∃ r, decodeWord op = .nopE r) ↔ op.toNat / 4096 = 0xE ∧ op.toNat % 16 ∉ [0x1, 0xE]) ∧
    ((∃ r, decodeWord op = .nopF r) ↔
      op.toNat / 4096 = 0xF ∧ op.toNat % 256 ∉ [0x07, 0x0A, 0x15, 0x18, 0x1E, 0x29, 0x33, 0x55, 0x65])

/-! ### The cycle -/

/-- A step runs the decoded instruction: when the bytes at `PC` decode to a well-formed instruction, the step is `exec`
of it on the state with `PC` advanced by 2, and then, unless it raised a fault, each timer loses 1 and stops at 0
(40_cycle.md R70, R73 to R76). -/
def Obligations.StepRunsDecoded : Prop :=
  ∀ (s u : State) (i : Instr), s.faulted = false → s.wait = false → s.pc.toNat + 2 ≤ 4096 → i.WellFormed →
    decodeBytes [s.mem.byteAt s.pc.toNat, s.mem.byteAt (s.pc.toNat + 1)] = .ok (i, []) →
    exec i { s with pc := s.pc + 2 } = .next u →
    step s = .next (if u.faulted then u else
      { u with dt := BitVec.ofNat 8 (u.dt.toNat - 1), st := BitVec.ofNat 8 (u.st.toNat - 1) })

/-- Fetch (40_cycle.md R72): in range, the opcode is the big-endian word at `PC`; with `PC` at or above 0x0FFF the cycle
raises `OutOfRange(PC, 2)` and changes nothing but the fault state (the threshold is the spec's decision D3, the record
D16; log entries 10 and 13). -/
def Obligations.FetchWindow : Prop :=
  ∀ s : State,
    (s.pc.toNat + 2 ≤ 4096 → ∃ op, s.fetch = .ok op ∧
      op.toNat = 256 * s.view (.mem s.pc.toNat) + s.view (.mem (s.pc.toNat + 1))) ∧
    (0x0FFF ≤ s.pc.toNat → s.faulted = false → s.wait = false →
      ∃ t, step s = .next t ∧ Raised 1 s.pc.toNat 2 s t)

/-- Timer decay (40_cycle.md R76): every cycle that neither faults nor starts faulted ends with each timer one less
than the instruction, or the retry, left it, and 0 stays 0; every other cycle leaves both timers alone. That a retry
decays them is the spec's decision D15, log entry 12. -/
def Obligations.TimerDecay : Prop :=
  ∀ s t : State, step s = .next t →
    ((s.faulted = true ∨ t.faulted = true) → t.view .dt = s.view .dt ∧ t.view .st = s.view .st) ∧
    (s.faulted = false → t.faulted = false → s.wait = true →
      t.view .dt = s.view .dt - 1 ∧ t.view .st = s.view .st - 1) ∧
    (s.faulted = false → t.faulted = false → s.wait = false → ∃ op u, s.fetch = .ok op ∧
      exec (decodeWord op) s.stepPc = .next u ∧ t.view .dt = u.view .dt - 1 ∧ t.view .st = u.view .st - 1)

/-- A timer loaded decays in its own cycle, and `LD Vx, DT` reads the value before the decay (40_cycle.md R77). -/
def Obligations.TimerLoadDecays : Prop :=
  ∀ (s t : State) (x : RegNum) (op : Word), s.faulted = false → s.wait = false → s.fetch = .ok op → step s = .next t →
    (decodeWord op = .ldDTVx x → t.view .dt = s.view (.v x) - 1 ∧ t.view .st = s.view .st - 1) ∧
    (decodeWord op = .ldSTVx x → t.view .st = s.view (.v x) - 1 ∧ t.view .dt = s.view .dt - 1) ∧
    (decodeWord op = .ldVxDT x → t.view (.v x) = s.view .dt ∧ t.view .dt = s.view .dt - 1)

/-- A faulted machine changes nothing, however many cycles are issued (40_cycle.md R71, 60_exceptions.md R166; the
spec's decision D16, log entry 13). -/
def Obligations.FaultedMachineStays : Prop :=
  ∀ (n : Nat) (s : State), s.faulted = true → Host.Core.run Sys2Proof.core n s = .next s

/-- A retry cycle of a pending wait (40_cycle.md R78; which key and the decay are the spec's decisions D14 and D15, log
entry 12): with a key down, the least pressed index goes to `V[WAIT_REG]` and the wait ends, `WAIT` and
`WAIT_REG` both cleared (10_state.md R19); with none, it goes on; the timers decay, and nothing else changes, `PC`
included. -/
def Obligations.RetryOfWait : Prop :=
  ∀ s : State, s.faulted = false → s.wait = true → ∃ t, step s = .next t ∧
    t.view .dt = s.view .dt - 1 ∧ t.view .st = s.view .st - 1 ∧
    (∀ k : KeyNum, s.view (.key k) = 1 → (∀ j : KeyNum, j < k → s.view (.key j) = 0) →
      t.view (.v s.waitReg) = k.val ∧ t.view .wait = 0 ∧ t.view .waitReg = 0 ∧
      KeepsAllBut (fun p => p ∈ [.v s.waitReg, .wait, .waitReg, .dt, .st]) s t) ∧
    ((∀ k : KeyNum, s.view (.key k) = 0) → KeepsAllBut (fun p => p ∈ [.dt, .st]) s t)

/-- The step answers a next state in every state: no opcode stops the machine (30_encoding.md R58), and a fault is a
state (60_exceptions.md R165). -/
def Obligations.StepAlwaysAnswers : Prop := ∀ s : State, ∃ t, step s = .next t

/-- An unconditional jump lands exactly on its address, and a skip-if-equal advances `PC` by 4 in all when its condition
holds and by 2 when it does not (40_cycle.md R80). -/
def Obligations.JumpAndSkipCycle : Prop :=
  ∀ (s t : State) (op : Word), s.faulted = false → s.wait = false → s.fetch = .ok op → step s = .next t →
    (∀ nnn, decodeWord op = .jp nnn → t.view .pc = nnn.toNat) ∧
    (∀ x kk, decodeWord op = .seImm x kk →
      t.view .pc = s.view .pc + if s.view (.v x) = kk.toNat then 4 else 2) ∧
    (∀ x y, decodeWord op = .seReg x y →
      t.view .pc = s.view .pc + if s.view (.v x) = s.view (.v y) then 4 else 2)

/-! ### Reset and the invariant -/

/-- Every piece of the spec's state is at its reset value (10_state.md R29). -/
def resetValues (t : State) : Prop :=
  (∀ r, t.view (.v r) = 0) ∧ t.view .i = 0 ∧ t.view .pc = 0x200 ∧ t.view .dt = 0 ∧ t.view .st = 0 ∧ t.view .sp = 0 ∧
    (∀ k, t.view (.stk k) = 0) ∧ (∀ r c, t.view (.pixel r c) = 0) ∧ (∀ k, t.view (.key k) = 0) ∧ t.view .wait = 0 ∧
    t.view .waitReg = 0 ∧ t.view .faulted = 0 ∧ t.view .faultCause = 0 ∧ t.view .faultAddr = 0 ∧ t.view .faultLen = 0 ∧
    (∀ d row, d < 16 → row < 5 → t.view (.mem (0x50 + 5 * d + row)) = (Config.font.getD (5 * d + row) 0).toNat) ∧
    (∀ a, a < 0x50 ∨ 0xA0 ≤ a → t.view (.mem a) = 0)

/-- What reset leaves (10_state.md R29): the machine right after reset has the reset values, and so has the machine
after `reset` asserted in any state, a faulted or a waiting one included (70_reset_and_hazards.md R180, 60_exceptions.md
R166), whatever has run before; the loader may then write again. The memory outside the font, the latch, the status bits
and a second reset are the spec's decision D17, the font bytes D6 (log entries 4 and 14); that reset keeps the count of
draws is the model's, log entry 1. -/
def Obligations.ResetState : Prop :=
  resetValues State.reset ∧
    ∀ e : Env, ∃ e', e.move .reset = some e' ∧ resetValues e'.core ∧ e'.started = false ∧
      e'.core.view .draws = e.core.view .draws

/-- The machine right after reset meets the invariant. -/
def Obligations.ResetMeetsInv : Prop := State.reset.Inv

/-- Every step keeps the invariant: the memory's canonical form, the bound on `PC` and on the return addresses
(10_state.md R14), a fault record that is zero until a fault and true after it (10_state.md R28, 60_exceptions.md R160
to R163), no wait in a faulted machine (40_cycle.md R78), and `WAIT_REG` cleared outside a wait (10_state.md R19). -/
def Obligations.StepKeepsInv : Prop := ∀ s t : State, s.Inv → step s = .next t → t.Inv

/-- Every move the outside agents have keeps the invariant (10_state.md R24 to R26). -/
def Obligations.OutsideMovesKeepInv : Prop :=
  ∀ (e e' : Env) (m : Move), e.core.Inv → e.move m = some e' → e'.core.Inv

/-- The parts are all there is: two states whose memories have the canonical form and that show the same in every part
are the same state, so a frame over the parts leaves nothing out. -/
def Obligations.PartsDetermineState : Prop :=
  ∀ s t : State, s.mem.wf = true → t.mem.wf = true → (∀ p, s.view p = t.view p) → s = t

/-! ### Rules of the whole machine -/

/-- No cycle writes the key latch (10_state.md R20). -/
def Obligations.CyclesKeepKeys : Prop :=
  ∀ (s t : State) (k : KeyNum), step s = .next t → t.view (.key k) = s.view (.key k)

/-- Only `CALL` and `RET` touch the call stack (10_state.md R18). -/
def Obligations.OnlyCallRetTouchStack : Prop :=
  ∀ (i : Instr) (s t : State), exec i s = .next t → (∀ nnn, i ≠ .call nnn) → i ≠ .ret →
    t.view .sp = s.view .sp ∧ ∀ k, t.view (.stk k) = s.view (.stk k)

/-- Only `CLS` and `DRW` write the framebuffer (10_state.md R23, 44_display.md R130). -/
def Obligations.OnlyClsDrwWritePixels : Prop :=
  ∀ (i : Instr) (s t : State) (r : Fin 32) (c : Fin 64), exec i s = .next t → i ≠ .cls → (∀ x y n, i ≠ .drw x y n) →
    t.view (.pixel r c) = s.view (.pixel r c)

/-- Only `LD B, Vx` and `LD [I], Vx` write memory (20_memory.md R31). -/
def Obligations.OnlyTwoWriteMemory : Prop :=
  ∀ (i : Instr) (s t : State) (a : Nat), exec i s = .next t → (∀ x, i ≠ .ldBVx x) → (∀ x, i ≠ .ldMemVx x) →
    t.view (.mem a) = s.view (.mem a)

/-- Only the skips, the jumps, `CALL` and `RET` change `PC` after the advance (10_state.md R14). -/
def Obligations.OnlyFlowChangesPc : Prop :=
  ∀ (i : Instr) (s t : State), exec i s = .next t →
    (∀ x kk, i ≠ .seImm x kk ∧ i ≠ .sneImm x kk) → (∀ x y, i ≠ .seReg x y ∧ i ≠ .sneReg x y) →
    (∀ x, i ≠ .skp x ∧ i ≠ .sknp x) → (∀ nnn, i ≠ .jp nnn ∧ i ≠ .call nnn ∧ i ≠ .jpV0 nnn) → i ≠ .ret →
    t.view .pc = s.view .pc

/-- `I` is written by `LD I, nnn`, `ADD I, Vx` and `LD F, Vx` only (10_state.md R13), `DT` by `LD DT, Vx` and `ST` by
`LD ST, Vx` (R15, R16), the wait by `LD Vx, K` (R19), and a random byte is drawn by `RND` only (R21). -/
def Obligations.WritersOfSpecialRegisters : Prop :=
  ∀ (i : Instr) (s t : State), exec i s = .next t →
    ((∀ nnn, i ≠ .ldI nnn) → (∀ x, i ≠ .addIVx x ∧ i ≠ .ldFVx x) → t.view .i = s.view .i) ∧
    ((∀ x, i ≠ .ldDTVx x) → t.view .dt = s.view .dt) ∧ ((∀ x, i ≠ .ldSTVx x) → t.view .st = s.view .st) ∧
    ((∀ x, i ≠ .ldVxK x) → t.view .wait = s.view .wait ∧ t.view .waitReg = s.view .waitReg) ∧
    ((∀ x kk, i ≠ .rnd x kk) → t.view .draws = s.view .draws)

/-- The instruction writes `VF` as a side effect: one of the six of 10_state.md R12. -/
def flagWriter : Instr → Prop
  | .addReg _ _ | .subReg _ _ | .subnReg _ _ | .shr _ _ | .shl _ _ | .drw _ _ _ => True
  | .cls | .ret | .sys _ | .jp _ | .call _ | .seImm _ _ | .sneImm _ _ | .seReg _ _ | .ldImm _ _ | .addImm _ _
  | .ldReg _ _ | .orReg _ _ | .andReg _ _ | .xorReg _ _ | .sneReg _ _ | .ldI _ | .jpV0 _ | .rnd _ _ | .skp _ | .sknp _
  | .ldVxDT _ | .ldVxK _ | .ldDTVx _ | .ldSTVx _ | .addIVx _ | .ldFVx _ | .ldBVx _ | .ldMemVx _ | .ldVxMem _ | .nop8 _
  | .nopE _ | .nopF _ => False

/-- The instruction names `VF` in a register field it reads or writes, or in its register block. -/
def namesVf : Instr → Prop
  | .ldReg x y | .orReg x y | .andReg x y | .xorReg x y | .addReg x y | .subReg x y | .subnReg x y | .seReg x y
  | .sneReg x y | .drw x y _ => x = 15 ∨ y = 15
  | .shr x _ | .shl x _ => x = 15
  | .seImm x _ | .sneImm x _ | .ldImm x _ | .addImm x _ | .rnd x _ => x = 15
  | .skp x | .sknp x | .ldVxDT x | .ldVxK x | .ldDTVx x | .ldSTVx x | .addIVx x | .ldFVx x | .ldBVx x | .ldMemVx x
  | .ldVxMem x => x = 15
  | .cls | .ret | .sys _ | .jp _ | .call _ | .ldI _ | .jpV0 _ | .nop8 _ | .nopE _ | .nopF _ => False

/-- The instruction names `VF` as a destination of its result, or loads it as the last register of a block. `DRW` has
no register for a result. -/
def resultInVf : Instr → Prop
  | .ldReg x _ | .orReg x _ | .andReg x _ | .xorReg x _ | .addReg x _ | .subReg x _ | .subnReg x _ | .shr x _
  | .shl x _ => x = 15
  | .ldImm x _ | .addImm x _ | .rnd x _ => x = 15
  | .ldVxDT x | .ldVxK x | .ldVxMem x => x = 15
  | .cls | .ret | .sys _ | .jp _ | .call _ | .seImm _ _ | .sneImm _ _ | .seReg _ _ | .sneReg _ _ | .ldI _ | .jpV0 _
  | .drw _ _ _ | .skp _ | .sknp _ | .ldDTVx _ | .ldSTVx _ | .addIVx _ | .ldFVx _ | .ldBVx _ | .ldMemVx _ | .nop8 _
  | .nopE _ | .nopF _ => False

/-- Exactly six instructions write `VF` as a side effect: `ADD`, `SUB`, `SUBN`, `SHR` and `SHL` leave 0 or 1 there
unless `x` is `F`, whatever `y` is, and `DRW` whatever `x` and `y` are unless it faults; every other instruction leaves
`VF` alone unless it names it as its destination (10_state.md R12, 44_display.md R132). -/
def Obligations.SixWriteVf : Prop :=
  ∀ (i : Instr) (s t : State), exec i s = .next t → ¬ resultInVf i →
    (¬ flagWriter i → t.view (.v 15) = s.view (.v 15)) ∧ (flagWriter i → t.faulted = false → t.view (.v 15) ≤ 1)

/-- No instruction reads `VF` unless it names it: two states that differ only in `VF` go to states that differ only in
`VF` (10_state.md R12). -/
def Obligations.VfReadOnlyByName : Prop :=
  ∀ (i : Instr) (s s' t t' : State), ¬ namesVf i → KeepsAllBut (fun p => p = .v 15) s s' →
    exec i s = .next t → exec i s' = .next t' → KeepsAllBut (fun p => p = .v 15) t t'

/-- Faults are precise: an instruction that raises one is among the six of 60_exceptions.md R160, and changes nothing
but the fault record (R164; the spec's decision D26, log entry 16). -/
def Obligations.DispatchFaultsArePrecise : Prop :=
  ∀ (i : Instr) (s t : State), s.faulted = false → exec i s = .next t → t.faulted = true →
    KeepsAllBut Part.ofFault s t ∧
    (((∃ nnn, i = .call nnn) ∧ t.view .faultCause = 2) ∨ (i = .ret ∧ t.view .faultCause = 3) ∨
      (((∃ x y n, i = .drw x y n) ∨ (∃ x, i = .ldBVx x ∨ i = .ldMemVx x ∨ i = .ldVxMem x)) ∧
        t.view .faultCause = 1 ∧ t.view .faultAddr = s.view .i ∧
        4096 < t.view .faultAddr + t.view .faultLen))

/-! ### Control flow -/

/-- `SYS nnn` and the three fallback rows do nothing at all (30_encoding.md R59, 41_flow.md R90; that `0nnn` is the no-op
is the spec's decision D27, log entry 5). -/
def Obligations.NoOpsChangeNothing : Prop :=
  ∀ (s : State) (w : Addr12), ∀ i ∈ [Instr.sys w, .nop8 w, .nopE w, .nopF w],
    ∃ t, exec i s = .next t ∧ KeepsAllBut (fun _ => False) s t

/-- `JP nnn` (41_flow.md R92): in the dispatch step, and exactly `nnn` after the whole cycle. The opcode's value is the
spec's decision D5, log entry 5. -/
def Obligations.JumpResult : Prop :=
  ∀ (s : State) (nnn : Addr12),
    (∀ op : Word, op.toNat = 0x1000 + nnn.toNat → decodeWord op = .jp nnn) ∧
    (∃ t, exec (.jp nnn) s = .next t ∧ t.view .pc = nnn.toNat ∧ KeepsAllBut (fun p => p = .pc) s t) ∧
    (s.faulted = false → s.wait = false → s.fetch = .ok (encode (.jp nnn)) →
      ∃ t, step s = .next t ∧ t.view .pc = nnn.toNat)

/-- `JP V0, nnn` (41_flow.md R98): the spec's decision D11, log entry 6. -/
def Obligations.IndexedJumpResult : Prop :=
  ∀ (s : State) (nnn : Addr12), ∃ t, exec (.jpV0 nnn) s = .next t ∧ t.view .pc = nnn.toNat + s.view (.v 0) ∧
    KeepsAllBut (fun p => p = .pc) s t

/-- `CALL nnn` with room on the stack (41_flow.md R93): the advanced `PC` is pushed (the spec's decision D20, log
entry 15). -/
def Obligations.CallResult : Prop :=
  ∀ (s : State) (nnn : Addr12) (k : Fin 16), s.view .sp = k.val → ∃ t, exec (.call nnn) s = .next t ∧
    t.view .pc = nnn.toNat ∧ t.view .sp = k.val + 1 ∧ t.view (.stk k) = s.view .pc ∧
    KeepsAllBut (fun p => p ∈ [.pc, .sp, .stk k]) s t

/-- `RET` with an entry on the stack (41_flow.md R91, its effect from general knowledge, log entry 6): the newest entry
goes to `PC`, and the slot keeps its value (10_state.md R18). -/
def Obligations.RetResult : Prop :=
  ∀ (s : State) (k : Fin 16), s.view .sp = k.val + 1 → ∃ t, exec .ret s = .next t ∧
    t.view .pc = s.view (.stk k) ∧ t.view .sp = k.val ∧ KeepsAllBut (fun p => p ∈ [.pc, .sp]) s t

/-- The stack's faults: `CALL` on a full stack raises StackOverflow, code 2, `RET` on an empty one StackUnderflow,
code 3; neither records anything beyond the cause (60_exceptions.md R162, R163), and neither instruction faults otherwise. The
codes and the frame are the spec's decision D16, log entry 13. -/
def Obligations.StackFaults : Prop :=
  ∀ s : State,
    (∀ nnn, s.view .sp = 16 → ∃ t, exec (.call nnn) s = .next t ∧ Raised 2 0 0 s t) ∧
    (∀ nnn t, s.view .sp < 16 → exec (.call nnn) s = .next t → t.view .faulted = s.view .faulted) ∧
    (s.view .sp = 0 → ∃ t, exec .ret s = .next t ∧ Raised 3 0 0 s t) ∧
    (∀ t, 0 < s.view .sp → exec .ret s = .next t → t.view .faulted = s.view .faulted)

/-- A subroutine returns to the instruction after its call: `CALL`, then any states that keep the stack and its newest
slot, then `RET` (10_state.md R18, 41_flow.md R91, R93; decision D20, log entry 15). -/
def Obligations.CallThenRet : Prop :=
  ∀ (s t u w : State) (nnn : Addr12) (k : Fin 16), s.view .sp = k.val → exec (.call nnn) s = .next t →
    u.view .sp = t.view .sp → u.view (.stk k) = t.view (.stk k) → exec .ret u = .next w →
    w.view .pc = s.view .pc ∧ w.view .sp = s.view .sp

/-- `SE Vx, kk` and `SNE Vx, kk` (41_flow.md R94, R95): a further 2 on `PC`, mod 2^16, when the condition holds, on top
of the cycle's own 2. The opcodes' values are the spec's decision D5, log entry 5. -/
def Obligations.SkipOnImmediate : Prop :=
  ∀ (s : State) (x : RegNum) (kk : Byte),
    (∀ op : Word, op.toNat = 0x3000 + 256 * x.val + kk.toNat → decodeWord op = .seImm x kk) ∧
    (∀ op : Word, op.toNat = 0x4000 + 256 * x.val + kk.toNat → decodeWord op = .sneImm x kk) ∧
    (∃ t, exec (.seImm x kk) s = .next t ∧
      t.view .pc = (s.view .pc + if s.view (.v x) = kk.toNat then 2 else 0) % 65536 ∧
      KeepsAllBut (fun p => p = .pc) s t) ∧
    (∃ t, exec (.sneImm x kk) s = .next t ∧
      t.view .pc = (s.view .pc + if s.view (.v x) = kk.toNat then 0 else 2) % 65536 ∧
      KeepsAllBut (fun p => p = .pc) s t) ∧
    (∀ op, s.faulted = false → s.wait = false → s.fetch = .ok op → ∃ t, step s = .next t ∧
      (decodeWord op = .seImm x kk → t.view .pc = s.view .pc + if s.view (.v x) = kk.toNat then 4 else 2) ∧
      (decodeWord op = .sneImm x kk → t.view .pc = s.view .pc + if s.view (.v x) = kk.toNat then 2 else 4))

/-- `SE Vx, Vy` and `SNE Vx, Vy` (41_flow.md R96, R97): a further 2 on `PC`, mod 2^16, on top of the cycle's own 2; the
opcode's low nibble `m` is ignored (the opcodes' values and the ignored bits are the spec's decisions D5 and D27, log
entry 5). -/
def Obligations.SkipOnRegisters : Prop :=
  ∀ (s : State) (x y : RegNum),
    (∀ (op : Word) (m : Fin 16), op.toNat = 0x5000 + 256 * x.val + 16 * y.val + m.val → decodeWord op = .seReg x y) ∧
    (∀ (op : Word) (m : Fin 16), op.toNat = 0x9000 + 256 * x.val + 16 * y.val + m.val → decodeWord op = .sneReg x y) ∧
    (∃ t, exec (.seReg x y) s = .next t ∧
      t.view .pc = (s.view .pc + if s.view (.v x) = s.view (.v y) then 2 else 0) % 65536 ∧
      KeepsAllBut (fun p => p = .pc) s t) ∧
    (∃ t, exec (.sneReg x y) s = .next t ∧
      t.view .pc = (s.view .pc + if s.view (.v x) = s.view (.v y) then 0 else 2) % 65536 ∧
      KeepsAllBut (fun p => p = .pc) s t) ∧
    (∀ op, s.faulted = false → s.wait = false → s.fetch = .ok op → ∃ t, step s = .next t ∧
      (decodeWord op = .seReg x y → t.view .pc = s.view .pc + if s.view (.v x) = s.view (.v y) then 4 else 2) ∧
      (decodeWord op = .sneReg x y → t.view .pc = s.view .pc + if s.view (.v x) = s.view (.v y) then 2 else 4))

/-! ### Registers -/

/-- `LD Vx, kk`, `ADD Vx, kk` and `LD Vx, Vy` (42_alu.md R101 to R103): the sum wraps at 256 and no flag is written. From
general knowledge and the spec's decisions D10 and D28, log entries 6 and 9. -/
def Obligations.LoadsAndFlaglessAdd : Prop :=
  ∀ (s : State) (x y : RegNum) (kk : Byte),
    (∃ t, exec (.ldImm x kk) s = .next t ∧ t.view (.v x) = kk.toNat ∧ KeepsAllBut (fun p => p = .v x) s t) ∧
    (∃ t, exec (.addImm x kk) s = .next t ∧ t.view (.v x) = (s.view (.v x) + kk.toNat) % 256 ∧
      KeepsAllBut (fun p => p = .v x) s t) ∧
    (∃ t, exec (.ldReg x y) s = .next t ∧ t.view (.v x) = s.view (.v y) ∧ KeepsAllBut (fun p => p = .v x) s t)

/-- `OR`, `AND` and `XOR` bit by bit; `VF` is not written (42_alu.md R104 to R106; decision D9, log entry 9). -/
def Obligations.LogicBitByBit : Prop :=
  ∀ (s : State) (x y : RegNum),
    (∃ t, exec (.orReg x y) s = .next t ∧ KeepsAllBut (fun p => p = .v x) s t ∧ ∀ b < 8,
      (t.view (.v x)).testBit b = ((s.view (.v x)).testBit b || (s.view (.v y)).testBit b)) ∧
    (∃ t, exec (.andReg x y) s = .next t ∧ KeepsAllBut (fun p => p = .v x) s t ∧ ∀ b < 8,
      (t.view (.v x)).testBit b = ((s.view (.v x)).testBit b && (s.view (.v y)).testBit b)) ∧
    (∃ t, exec (.xorReg x y) s = .next t ∧ KeepsAllBut (fun p => p = .v x) s t ∧ ∀ b < 8,
      (t.view (.v x)).testBit b = ((s.view (.v x)).testBit b ^^ (s.view (.v y)).testBit b))

/-- `ADD Vx, Vy` (42_alu.md R107): `V[x]` is the sum mod 256 whatever `x` and `y` are, and `VF` the carry out unless `x`
is `F`: that case is R100, the spec's decision D8, log entry 8. The opcode's value is the spec's decision D5, log
entry 5. -/
def Obligations.AddWithCarry : Prop :=
  ∀ (s : State) (x y : RegNum),
    (∀ op : Word, op.toNat = 0x8004 + 256 * x.val + 16 * y.val → decodeWord op = .addReg x y) ∧
    ∃ t, exec (.addReg x y) s = .next t ∧
    t.view (.v x) = (s.view (.v x) + s.view (.v y)) % 256 ∧
    (x ≠ 15 → t.view (.v 15) = if 255 < s.view (.v x) + s.view (.v y) then 1 else 0) ∧
    KeepsAllBut (fun p => p = .v x ∨ p = .v 15) s t

/-- `SUB Vx, Vy` and `SUBN Vx, Vy` (42_alu.md R108, R110): the difference mod 256 whatever `x` and `y` are, and `VF` is 1
exactly when the minuend is strictly greater, unless `x` is `F`: that case is R100, the spec's decision D8, log entry 8. The
opcodes' values are the spec's decision D5, log entry 5. -/
def Obligations.SubtractBothOrders : Prop :=
  ∀ (s : State) (x y : RegNum),
    (∀ op : Word, op.toNat = 0x8005 + 256 * x.val + 16 * y.val → decodeWord op = .subReg x y) ∧
    (∀ op : Word, op.toNat = 0x8007 + 256 * x.val + 16 * y.val → decodeWord op = .subnReg x y) ∧
    (∃ t, exec (.subReg x y) s = .next t ∧
      t.view (.v x) = (256 + s.view (.v x) - s.view (.v y)) % 256 ∧
      (x ≠ 15 → t.view (.v 15) = if s.view (.v y) < s.view (.v x) then 1 else 0) ∧
      KeepsAllBut (fun p => p = .v x ∨ p = .v 15) s t) ∧
    (∃ t, exec (.subnReg x y) s = .next t ∧
      t.view (.v x) = (256 + s.view (.v y) - s.view (.v x)) % 256 ∧
      (x ≠ 15 → t.view (.v 15) = if s.view (.v x) < s.view (.v y) then 1 else 0) ∧
      KeepsAllBut (fun p => p = .v x ∨ p = .v 15) s t)

/-- `SHR Vx` and `SHL Vx` (42_alu.md R109, R111): `V[x]` shifted by one in place, `VF` the bit shifted out unless `x` is
`F`; `y` plays no part (the spec's decisions D7 and D8, log entries 7 and 8). -/
def Obligations.ShiftsInPlace : Prop :=
  ∀ (s : State) (x y : RegNum),
    (∃ t, exec (.shr x y) s = .next t ∧ t.view (.v x) = s.view (.v x) / 2 ∧
      (x ≠ 15 → t.view (.v 15) = s.view (.v x) % 2) ∧ KeepsAllBut (fun p => p = .v x ∨ p = .v 15) s t) ∧
    (∃ t, exec (.shl x y) s = .next t ∧ t.view (.v x) = 2 * s.view (.v x) % 256 ∧
      (x ≠ 15 → t.view (.v 15) = s.view (.v x) / 128) ∧ KeepsAllBut (fun p => p = .v x ∨ p = .v 15) s t)

/-- `RND Vx, kk` (42_alu.md R112): one fresh draw AND the immediate, so no bit outside `kk` is set; nothing else changes
but the count of draws, so the next `RND` takes another draw. The count is the model's own, log entry 1; the opcode's
value is the spec's decision D5, log entry 5. -/
def Obligations.RandomAndImmediate : Prop :=
  ∀ (s : State) (x : RegNum) (kk : Byte),
    (∀ op : Word, op.toNat = 0xC000 + 256 * x.val + kk.toNat → decodeWord op = .rnd x kk) ∧
    ∃ t, exec (.rnd x kk) s = .next t ∧ t.view .draws = s.view .draws + 1 ∧
      (∀ b < 8, (t.view (.v x)).testBit b = ((Config.randByte (s.view .draws)).toNat.testBit b && kk.toNat.testBit b)) ∧
      t.view (.v x) ≤ kk.toNat ∧ KeepsAllBut (fun p => p = .v x ∨ p = .draws) s t

/-! ### The address register and memory -/

/-- `LD I, nnn`, `ADD I, Vx` and `LD F, Vx` (43_index_memory.md R120 to R122; the spec's decisions D10, D13 and D28, log
entries 6, 9 and 11). -/
def Obligations.AddressRegister : Prop :=
  ∀ (s : State) (x : RegNum) (nnn : Addr12),
    (∃ t, exec (.ldI nnn) s = .next t ∧ t.view .i = nnn.toNat ∧ KeepsAllBut (fun p => p = .i) s t) ∧
    (∃ t, exec (.addIVx x) s = .next t ∧ t.view .i = (s.view .i + s.view (.v x)) % 65536 ∧
      KeepsAllBut (fun p => p = .i) s t) ∧
    (∃ t, exec (.ldFVx x) s = .next t ∧ t.view .i = 0x50 + 5 * s.view (.v x) ∧ KeepsAllBut (fun p => p = .i) s t)

/-- `LD B, Vx` (43_index_memory.md R123): the three digits at `I`, or `OutOfRange(I, 3)` with nothing written. The opcode's
value is the spec's decision D5, log entry 5; the threshold D3, log entry 10; the frame of the fault D16 and D26, log
entries 13 and 16. -/
def Obligations.BcdStore : Prop :=
  ∀ (s : State) (x : RegNum),
    (∀ op : Word, op.toNat = 0xF033 + 256 * x.val → decodeWord op = .ldBVx x) ∧
    (s.view .i + 3 ≤ 4096 → ∃ t, exec (.ldBVx x) s = .next t ∧
      t.view (.mem (s.view .i)) = s.view (.v x) / 100 ∧
      t.view (.mem (s.view .i + 1)) = s.view (.v x) / 10 % 10 ∧
      t.view (.mem (s.view .i + 2)) = s.view (.v x) % 10 ∧ KeepsAllBut (Part.inWindow s.i 3) s t) ∧
    (4096 < s.view .i + 3 → ∃ t, exec (.ldBVx x) s = .next t ∧ Raised 1 (s.view .i) 3 s t)

/-- `LD [I], Vx` (43_index_memory.md R124): `V0..Vx` at `I`, `I` unchanged, and a fetch at those bytes sees them; or
`OutOfRange(I, x + 1)` with nothing written. The opcode's value is the spec's decision D5, log entry 5; the threshold
D3, log entry 10; the frame of the fault D16 and D26, log entries 13 and 16. -/
def Obligations.BlockStore : Prop :=
  ∀ (s : State) (x : RegNum),
    (∀ op : Word, op.toNat = 0xF055 + 256 * x.val → decodeWord op = .ldMemVx x) ∧
    (s.view .i + (x.val + 1) ≤ 4096 → ∃ t, exec (.ldMemVx x) s = .next t ∧
      (∀ j : RegNum, j ≤ x → t.view (.mem (s.view .i + j.val)) = s.view (.v j)) ∧
      (∀ (j : RegNum) (w : Word), j < x → w.toNat = s.view .i + j.val → ∃ op,
        ({ t with pc := w } : State).fetch = .ok op ∧ op.toNat = 256 * s.view (.v j) + s.view (.v (j + 1))) ∧
      KeepsAllBut (Part.inWindow s.i (x.val + 1)) s t) ∧
    (4096 < s.view .i + (x.val + 1) → ∃ t, exec (.ldMemVx x) s = .next t ∧ Raised 1 (s.view .i) (x.val + 1) s t)

/-- `LD Vx, [I]` (43_index_memory.md R125): `V0..Vx` from `I`, `I` and the registers above unchanged, or
`OutOfRange(I, x + 1)` with no register changed. The opcode's value is the spec's decision D5, log entry 5; the
threshold D3, log entry 10; the frame of the fault D16 and D26, log entries 13 and 16. -/
def Obligations.BlockLoad : Prop :=
  ∀ (s : State) (x : RegNum),
    (∀ op : Word, op.toNat = 0xF065 + 256 * x.val → decodeWord op = .ldVxMem x) ∧
    (s.view .i + (x.val + 1) ≤ 4096 → ∃ t, exec (.ldVxMem x) s = .next t ∧
      (∀ j : RegNum, j ≤ x → t.view (.v j) = s.view (.mem (s.view .i + j.val))) ∧
      KeepsAllBut (fun p => ∃ j : RegNum, p = .v j ∧ j ≤ x) s t) ∧
    (4096 < s.view .i + (x.val + 1) → ∃ t, exec (.ldVxMem x) s = .next t ∧ Raised 1 (s.view .i) (x.val + 1) s t)

/-- Write then read of a window in range gives the bytes written, and a byte outside it keeps its value (20_memory.md
R38). -/
def Obligations.MemoryRoundTrip : Prop :=
  ∀ (m : Memory) (addr : Word) (bytes : List Byte), addr.toNat + bytes.length ≤ 4096 →
    ∃ m', m.writeBlock addr bytes = .ok m' ∧ m'.readBlock addr bytes.length = .ok bytes ∧
      ∀ a, (a < addr.toNat ∨ addr.toNat + bytes.length ≤ a) → m'.byteAt a = m.byteAt a

/-- A window is out of range exactly when `addr + len > 4096`, for reads and writes alike, a zero-length one included
(20_memory.md R32, R33; the spec's decisions D3 and D4, log entry 10). -/
def Obligations.OutOfRangeExactly : Prop :=
  ∀ (m : Memory) (addr : Word) (bytes : List Byte),
    (m.readBlock addr bytes.length = .error (.outOfRange addr bytes.length) ↔ 4096 < addr.toNat + bytes.length) ∧
    (m.writeBlock addr bytes = .error (.outOfRange addr bytes.length) ↔ 4096 < addr.toNat + bytes.length) ∧
    ((∃ f, m.readBlock addr bytes.length = .error f) ↔ 4096 < addr.toNat + bytes.length) ∧
    ((∃ f, m.writeBlock addr bytes = .error f) ↔ 4096 < addr.toNat + bytes.length)

/-- `readByte` and `writeByte` (20_memory.md R34). -/
def Obligations.ByteAccess : Prop :=
  ∀ (m : Memory) (addr : Word) (val : Byte),
    (addr.toNat ≤ 0xFFF → m.readByte addr = .ok (m.byteAt addr.toNat) ∧
      ∃ m', m.writeByte addr val = .ok m' ∧ ∀ a, m'.byteAt a = if a = addr.toNat then val else m.byteAt a) ∧
    (0xFFF < addr.toNat → m.readByte addr = .error (.outOfRange addr 1) ∧
      m.writeByte addr val = .error (.outOfRange addr 1))

/-- `readWord` and `writeWord` are big-endian (20_memory.md R35, R39). -/
def Obligations.WordsAreBigEndian : Prop :=
  ∀ (m : Memory) (addr val : Word), addr.toNat ≤ 0xFFE →
    (∃ w, m.readWord addr = .ok w ∧
      w.toNat = 256 * (m.byteAt addr.toNat).toNat + (m.byteAt (addr.toNat + 1)).toNat) ∧
    ∃ m', m.writeWord addr val = .ok m' ∧ (m'.byteAt addr.toNat).toNat = val.toNat / 256 ∧
      (m'.byteAt (addr.toNat + 1)).toNat = val.toNat % 256

/-! ### The framebuffer -/

/-- `CLS` (44_display.md R131): every `0??0` opcode; all pixels off, `VF` and the rest untouched. The opcode's value and
the ignored bits are the spec's decisions D5 and D27, log entry 5; the size of the framebuffer D1, log entry 3. -/
def Obligations.ClearScreen : Prop :=
  (∀ (op : Word) (m : Fin 256), op.toNat = 16 * m.val → decodeWord op = .cls) ∧
    ∀ s : State, ∃ t, exec .cls s = .next t ∧ (∀ r c, t.view (.pixel r c) = 0) ∧ KeepsAllBut Part.ofScreen s t

/-- `DRW Vx, Vy, n` (44_display.md R132): with the `n` bytes at `I` in range, every pixel is flipped that a set bit of
the sprite falls on, wrapping, `VF` is 1 exactly when such a pixel was on, whatever `x` and `y` are, and the rest stays;
otherwise `OutOfRange(I, n)` with nothing drawn. The spec's decisions in it: the opcode's value D5, the size D1, the
operands D23, `x = F` and `y = F` D8, `n = 0` D4, the threshold D3, the frame of the fault D16 and D26 (log entries 3, 5,
6, 8, 10, 13 and 16). -/
def Obligations.DrawSprite : Prop :=
  ∀ (s : State) (x y : RegNum) (n : Nibble),
    (∀ op : Word, op.toNat = 0xD000 + 256 * x.val + 16 * y.val + n.toNat → decodeWord op = .drw x y n) ∧
    (s.view .i + n.toNat ≤ 4096 → ∃ (t : State) (rows : List Byte), exec (.drw x y n) s = .next t ∧
      rows.length = n.toNat ∧ (∀ k, k < n.toNat → (rows.getD k 0).toNat = s.view (.mem (s.view .i + k))) ∧
      (∀ r c, t.fb.pixel r c = (s.fb.pixel r c ^^ spriteCovers (s.reg x) (s.reg y) rows r c)) ∧
      ((∃ r c, spriteCovers (s.reg x) (s.reg y) rows r c = true ∧ s.fb.pixel r c = true) → t.view (.v 15) = 1) ∧
      ((∀ r c, spriteCovers (s.reg x) (s.reg y) rows r c = true → s.fb.pixel r c = false) → t.view (.v 15) = 0) ∧
      KeepsAllBut (fun p => p.ofScreen ∨ p = .v 15) s t) ∧
    (4096 < s.view .i + n.toNat → ∃ t, exec (.drw x y n) s = .next t ∧ Raised 1 (s.view .i) n.toNat s t)

/-- The sprite's bits and the pixels they fall on match one to one: row `k`, column `j` of the sprite falls on
`((xs + j) mod 64, (ys + k) mod 32)`, so nothing is clipped, and no two bits of the sprite land on the same
pixel (44_display.md R132, R133). -/
def Obligations.SpriteWrapsPerPixel : Prop :=
  ∀ (xs ys : Byte) (rows : List Byte) (r : Fin 32) (c : Fin 64), rows.length ≤ 15 →
    (spriteCovers xs ys rows r c = true ↔ ∃ k j, k < rows.length ∧ j < 8 ∧ (rows.getD k 0).getLsbD (7 - j) = true ∧
      c.val = (xs.toNat + j) % 64 ∧ r.val = (ys.toNat + k) % 32) ∧
    ∀ k j k' j', k < rows.length → k' < rows.length → j < 8 → j' < 8 →
      c.val = (xs.toNat + j) % 64 → r.val = (ys.toNat + k) % 32 →
      c.val = (xs.toNat + j') % 64 → r.val = (ys.toNat + k') % 32 → k = k' ∧ j = j'

/-- Drawing the same sprite twice at the same origin restores the framebuffer, and the second draw collides exactly when
a set bit of the sprite falls on a pixel that was off at first; so on a clear framebuffer it collides unless the sprite
is blank (44_display.md R132, R133). -/
def Obligations.DrawTwiceRestores : Prop :=
  ∀ (s t u : State) (x y : RegNum) (n : Nibble), s.view .i + n.toNat ≤ 4096 → exec (.drw x y n) s = .next t →
    t.reg x = s.reg x → t.reg y = s.reg y → exec (.drw x y n) t = .next u →
    (∀ r c, u.view (.pixel r c) = s.view (.pixel r c)) ∧
    (u.view (.v 15) = 1 ↔ ∃ (k j : Nat) (r : Fin 32) (c : Fin 64), k < n.toNat ∧ j < 8 ∧
      (s.view (.mem (s.view .i + k))).testBit (7 - j) = true ∧ r.val = (s.view (.v y) + k) % 32 ∧
      c.val = (s.view (.v x) + j) % 64 ∧ s.view (.pixel r c) = 0) ∧
    ((∀ r c, s.view (.pixel r c) = 0) →
      (u.view (.v 15) = 1 ↔ ∃ k, k < n.toNat ∧ s.view (.mem (s.view .i + k)) ≠ 0))

/-! ### Timers and keys -/

/-- `SKP Vx` and `SKNP Vx` (45_timers_input.md R140, R141): key `V[x] mod 16` (R146, the spec's decisions D12 and D28, log
entries 6 and 11); the latch is not changed. -/
def Obligations.KeySkips : Prop :=
  ∀ (s : State) (x : RegNum) (k : KeyNum), k.val = s.view (.v x) % 16 →
    (∃ t, exec (.skp x) s = .next t ∧
      t.view .pc = (s.view .pc + if s.view (.key k) = 1 then 2 else 0) % 65536 ∧
      KeepsAllBut (fun p => p = .pc) s t) ∧
    (∃ t, exec (.sknp x) s = .next t ∧
      t.view .pc = (s.view .pc + if s.view (.key k) = 1 then 0 else 2) % 65536 ∧
      KeepsAllBut (fun p => p = .pc) s t)

/-- `LD Vx, DT`, `LD DT, Vx` and `LD ST, Vx` in the dispatch step (45_timers_input.md R142, R144, R145; decision D28, log
entry 6). -/
def Obligations.TimerMoves : Prop :=
  ∀ (s : State) (x : RegNum),
    (∃ t, exec (.ldVxDT x) s = .next t ∧ t.view (.v x) = s.view .dt ∧ KeepsAllBut (fun p => p = .v x) s t) ∧
    (∃ t, exec (.ldDTVx x) s = .next t ∧ t.view .dt = s.view (.v x) ∧ KeepsAllBut (fun p => p = .dt) s t) ∧
    (∃ t, exec (.ldSTVx x) s = .next t ∧ t.view .st = s.view (.v x) ∧ KeepsAllBut (fun p => p = .st) s t)

/-- `LD Vx, K` in its first cycle (45_timers_input.md R143; the choice of the least key is the spec's decision D14, log
entry 12). -/
def Obligations.WaitForKey : Prop :=
  ∀ (s : State) (x : RegNum),
    (∀ k : KeyNum, s.view (.key k) = 1 → (∀ j : KeyNum, j < k → s.view (.key j) = 0) →
      ∃ t, exec (.ldVxK x) s = .next t ∧ t.view (.v x) = k.val ∧ KeepsAllBut (fun p => p = .v x) s t) ∧
    ((∀ k : KeyNum, s.view (.key k) = 0) →
      ∃ t, exec (.ldVxK x) s = .next t ∧ t.view .wait = 1 ∧ t.view .waitReg = x.val ∧
        KeepsAllBut (fun p => p = .wait ∨ p = .waitReg) s t)

/-! ### The ports -/

/-- The input source's port: `press(k)` sets cell `k`, `release(k)` clears it, and nothing else changes (10_state.md
R26). -/
def Obligations.KeyPort : Prop :=
  ∀ (e : Env) (k : KeyNum),
    (∃ e', e.move (.press k) = some e' ∧ e'.core.view (.key k) = 1 ∧ e'.started = e.started ∧
      KeepsAllBut (fun p => p = .key k) e.core e'.core) ∧
    (∃ e', e.move (.release k) = some e' ∧ e'.core.view (.key k) = 0 ∧ e'.started = e.started ∧
      KeepsAllBut (fun p => p = .key k) e.core e'.core)

/-- The loader (10_state.md R25; 70_reset_and_hazards.md R184). Its move before the first step writes one byte at 0x200
or above and nothing else; below 0x200, and once a step has been made, it has no move (the spec's decision D24, log
entry 18). An image of at most 3584 bytes lies verbatim from 0x200 on and nothing else changes, and its moves one after
another give just that; a larger one is refused. -/
def Obligations.LoaderWritesImage : Prop :=
  (∀ (e : Env) (addr : Addr12) (data : Byte),
    (e.started = false → 0x200 ≤ addr.toNat → ∃ e', e.move (.load addr data) = some e' ∧
      e'.core.view (.mem addr.toNat) = data.toNat ∧ e'.started = false ∧
      KeepsAllBut (fun p => p = .mem addr.toNat) e.core e'.core) ∧
    (addr.toNat < 0x200 → e.move (.load addr data) = none) ∧
    (e.started = true → e.move (.load addr data) = none) ∧
    ∃ e', e.move .step = some e' ∧ e'.started = true) ∧
  ∀ (s : State) (image : List Byte),
    (image.length ≤ 3584 → ∃ t, s.loadImage image = some t ∧
      (∀ j, j < image.length → t.view (.mem (0x200 + j)) = (image.getD j 0).toNat) ∧
      KeepsAllBut (Part.inWindow 0x200#16 image.length) s t ∧
      (Env.mk s false).moves (imageMoves image) = some (Env.mk t false)) ∧
    (3584 < image.length → s.loadImage image = none)
end

