-- ==== Sys2Proof/Laws/Decode.lean ====
section
/-! SUPPORT. What the fields of an encoded word are, and how an opcode's keys sit in its low twelve bits. -/

namespace Sys2Proof

@[simp] theorem nibbleIndex_indexNibble (r : Fin 16) : nibbleIndex (indexNibble r) = r := by
  have := r.isLt
  apply Fin.ext
  simp [nibbleIndex, indexNibble]

@[simp] theorem indexNibble_nibbleIndex (b : Nibble) : indexNibble (nibbleIndex b) = b := by
  apply BitVec.eq_of_toNat_eq
  simp [nibbleIndex, indexNibble]

/-- The second-level key of families 0, 8 and E lies in the low twelve bits. -/
theorem opN_eq_keyNibble (op : Word) : opN op = keyNibble (opNnn op) := by
  ext i hi
  simp [opN, keyNibble, opNnn]

/-- The second-level key of family F lies in the low twelve bits. -/
theorem opKk_eq_keyByte (op : Word) : opKk op = keyByte (opNnn op) := by
  ext i hi
  simp [opKk, keyByte, opNnn]

/-! ### The fields as numbers -/

theorem toNat_opT (op : Word) : (opT op).toNat = op.toNat / 4096 := by
  have := op.isLt
  simp [opT, Nat.shiftRight_eq_div_pow]
  omega

theorem val_opX (op : Word) : (opX op).val = op.toNat / 256 % 16 := by
  simp [opX, nibbleIndex, Nat.shiftRight_eq_div_pow]

theorem val_opY (op : Word) : (opY op).val = op.toNat / 16 % 16 := by
  simp [opY, nibbleIndex, Nat.shiftRight_eq_div_pow]

theorem toNat_opN (op : Word) : (opN op).toNat = op.toNat % 16 := by simp [opN]

theorem toNat_opKk (op : Word) : (opKk op).toNat = op.toNat % 256 := by simp [opKk]

theorem toNat_opNnn (op : Word) : (opNnn op).toNat = op.toNat % 4096 := by simp [opNnn]

/-- A test of the family nibble is a test of the opcode as a number. -/
theorem opT_eq_iff (op : Word) (t : Nibble) : opT op = t ↔ op.toNat / 4096 = t.toNat := by
  rw [← toNat_opT, BitVec.toNat_inj]

/-- A test of the low nibble is a test of the opcode as a number. -/
theorem opN_eq_iff (op : Word) (k : Nibble) : opN op = k ↔ op.toNat % 16 = k.toNat := by
  rw [← toNat_opN, BitVec.toNat_inj]

/-- A test of the low byte is a test of the opcode as a number. -/
theorem opKk_eq_iff (op : Word) (k : Byte) : opKk op = k ↔ op.toNat % 256 = k.toNat := by
  rw [← toNat_opKk, BitVec.toNat_inj]

theorem mapped8_eq_false (k : Nibble) (h : ∀ m ∈ [0x0#4, 0x1#4, 0x2#4, 0x3#4, 0x4#4, 0x5#4, 0x6#4, 0x7#4, 0xE#4], k ≠ m) :
    mapped8 k = false := by
  revert k
  decide

/-- Family 0, slot by slot (30_encoding.md R55). -/
theorem decodeFamily0_cases (op : Word) (P : Instr → Prop)
    (cls : opN op = 0x0#4 → P .cls)
    (ret : opN op = 0xE#4 → P .ret)
    (sys : mapped0 (opN op) = false → P (.sys (opNnn op))) : P (decodeFamily0 op) := by
  unfold decodeFamily0
  split
  · exact cls ‹_›
  · exact ret ‹_›
  · apply sys
    simp only [mapped0, Bool.or_eq_false_iff, beq_eq_false_iff_ne]
    exact ⟨‹_›, ‹_›⟩

/-- Family 8, slot by slot (30_encoding.md R55). -/
theorem decodeFamily8_cases (op : Word) (P : Instr → Prop)
    (ldReg : opN op = 0x0#4 → P (.ldReg (opX op) (opY op)))
    (orReg : opN op = 0x1#4 → P (.orReg (opX op) (opY op)))
    (andReg : opN op = 0x2#4 → P (.andReg (opX op) (opY op)))
    (xorReg : opN op = 0x3#4 → P (.xorReg (opX op) (opY op)))
    (addReg : opN op = 0x4#4 → P (.addReg (opX op) (opY op)))
    (subReg : opN op = 0x5#4 → P (.subReg (opX op) (opY op)))
    (shr : opN op = 0x6#4 → P (.shr (opX op) (opY op)))
    (subnReg : opN op = 0x7#4 → P (.subnReg (opX op) (opY op)))
    (shl : opN op = 0xE#4 → P (.shl (opX op) (opY op)))
    (nop8 : mapped8 (opN op) = false → P (.nop8 (opNnn op))) : P (decodeFamily8 op) := by
  unfold decodeFamily8
  split
  · exact ldReg ‹_›
  · exact orReg ‹_›
  · exact andReg ‹_›
  · exact xorReg ‹_›
  · exact addReg ‹_›
  · exact subReg ‹_›
  · exact shr ‹_›
  · exact subnReg ‹_›
  · exact shl ‹_›
  · apply nop8
    exact mapped8_eq_false _ (by simpa using ⟨‹_›, ‹_›, ‹_›, ‹_›, ‹_›, ‹_›, ‹_›, ‹_›, ‹_›⟩)

/-- Family E, slot by slot (30_encoding.md R55). -/
theorem decodeFamilyE_cases (op : Word) (P : Instr → Prop)
    (skp : opN op = 0xE#4 → P (.skp (opX op)))
    (sknp : opN op = 0x1#4 → P (.sknp (opX op)))
    (nopE : mappedE (opN op) = false → P (.nopE (opNnn op))) : P (decodeFamilyE op) := by
  unfold decodeFamilyE
  split
  · exact skp ‹_›
  · exact sknp ‹_›
  · apply nopE
    simp only [mappedE, Bool.or_eq_false_iff, beq_eq_false_iff_ne]
    exact ⟨‹_›, ‹_›⟩

/-- Family F, slot by slot (30_encoding.md R55). -/
theorem decodeFamilyF_cases (op : Word) (P : Instr → Prop)
    (ldVxDT : opKk op = 0x07#8 → P (.ldVxDT (opX op)))
    (ldVxK : opKk op = 0x0A#8 → P (.ldVxK (opX op)))
    (ldDTVx : opKk op = 0x15#8 → P (.ldDTVx (opX op)))
    (ldSTVx : opKk op = 0x18#8 → P (.ldSTVx (opX op)))
    (addIVx : opKk op = 0x1E#8 → P (.addIVx (opX op)))
    (ldFVx : opKk op = 0x29#8 → P (.ldFVx (opX op)))
    (ldBVx : opKk op = 0x33#8 → P (.ldBVx (opX op)))
    (ldMemVx : opKk op = 0x55#8 → P (.ldMemVx (opX op)))
    (ldVxMem : opKk op = 0x65#8 → P (.ldVxMem (opX op)))
    (nopF : mappedF (opKk op) = false → P (.nopF (opNnn op))) : P (decodeFamilyF op) := by
  unfold decodeFamilyF
  split
  · exact ldVxDT ‹_›
  · exact ldVxK ‹_›
  · exact ldDTVx ‹_›
  · exact ldSTVx ‹_›
  · exact addIVx ‹_›
  · exact ldFVx ‹_›
  · exact ldBVx ‹_›
  · exact ldMemVx ‹_›
  · exact ldVxMem ‹_›
  · apply nopF
    simp only [mappedF, Bool.or_eq_false_iff, beq_eq_false_iff_ne]
    exact ⟨⟨⟨⟨⟨⟨⟨⟨‹_›, ‹_›⟩, ‹_›⟩, ‹_›⟩, ‹_›⟩, ‹_›⟩, ‹_›⟩, ‹_›⟩, ‹_›⟩

theorem nibble_fifteen (k : Nibble) (h : ∀ m ∈ [0x0#4, 0x1#4, 0x2#4, 0x3#4, 0x4#4, 0x5#4, 0x6#4, 0x7#4, 0x8#4, 0x9#4,
    0xA#4, 0xB#4, 0xC#4, 0xD#4, 0xE#4], k ≠ m) : k = 0xF#4 := by
  revert k
  decide

/-- What a word decodes to, family by family: a property of the decoded instruction holds if it holds in each family
(30_encoding.md R54). -/
theorem decodeWord_cases (op : Word) (P : Instr → Prop)
    (f0 : opT op = 0x0#4 → P (decodeFamily0 op))
    (jp : opT op = 0x1#4 → P (.jp (opNnn op)))
    (call : opT op = 0x2#4 → P (.call (opNnn op)))
    (seImm : opT op = 0x3#4 → P (.seImm (opX op) (opKk op)))
    (sneImm : opT op = 0x4#4 → P (.sneImm (opX op) (opKk op)))
    (seReg : opT op = 0x5#4 → P (.seReg (opX op) (opY op)))
    (ldImm : opT op = 0x6#4 → P (.ldImm (opX op) (opKk op)))
    (addImm : opT op = 0x7#4 → P (.addImm (opX op) (opKk op)))
    (f8 : opT op = 0x8#4 → P (decodeFamily8 op))
    (sneReg : opT op = 0x9#4 → P (.sneReg (opX op) (opY op)))
    (ldI : opT op = 0xA#4 → P (.ldI (opNnn op)))
    (jpV0 : opT op = 0xB#4 → P (.jpV0 (opNnn op)))
    (rnd : opT op = 0xC#4 → P (.rnd (opX op) (opKk op)))
    (drw : opT op = 0xD#4 → P (.drw (opX op) (opY op) (opN op)))
    (fE : opT op = 0xE#4 → P (decodeFamilyE op))
    (fF : opT op = 0xF#4 → P (decodeFamilyF op)) : P (decodeWord op) := by
  unfold decodeWord
  split
  · exact f0 ‹_›
  · exact jp ‹_›
  · exact call ‹_›
  · exact seImm ‹_›
  · exact sneImm ‹_›
  · exact seReg ‹_›
  · exact ldImm ‹_›
  · exact addImm ‹_›
  · exact f8 ‹_›
  · exact sneReg ‹_›
  · exact ldI ‹_›
  · exact jpV0 ‹_›
  · exact rnd ‹_›
  · exact drw ‹_›
  · exact fE ‹_›
  · exact fF (nibble_fifteen _ (by simpa using ⟨‹_›, ‹_›, ‹_›, ‹_›, ‹_›, ‹_›, ‹_›, ‹_›, ‹_›, ‹_›, ‹_›, ‹_›, ‹_›, ‹_›, ‹_›⟩))

/-! ### Format `A` -/

@[simp] theorem opT_formatA (t : Nibble) (nnn : Addr12) : opT (formatA t nnn) = t := by
  ext i hi
  interval_cases i <;> simp [opT, formatA]

@[simp] theorem opNnn_formatA (t : Nibble) (nnn : Addr12) : opNnn (formatA t nnn) = nnn := by
  ext i hi
  interval_cases i <;> simp [opNnn, formatA]

/-! ### Format `XK` -/

@[simp] theorem opT_formatXK (t : Nibble) (x : RegNum) (kk : Byte) : opT (formatXK t x kk) = t := by
  ext i hi
  interval_cases i <;> simp [opT, formatXK]

@[simp] theorem opX_formatXK (t : Nibble) (x : RegNum) (kk : Byte) : opX (formatXK t x kk) = x := by
  have : (formatXK t x kk).extractLsb' 8 4 = indexNibble x := by
    ext i hi
    interval_cases i <;> simp [formatXK]
  simp [opX, this]

@[simp] theorem opKk_formatXK (t : Nibble) (x : RegNum) (kk : Byte) : opKk (formatXK t x kk) = kk := by
  ext i hi
  interval_cases i <;> simp [opKk, formatXK]

/-! ### Formats `XY` and `XYN` -/

@[simp] theorem opT_formatXYN (t : Nibble) (x y : RegNum) (n : Nibble) : opT (formatXYN t x y n) = t := by
  ext i hi
  interval_cases i <;> simp [opT, formatXYN]

@[simp] theorem opX_formatXYN (t : Nibble) (x y : RegNum) (n : Nibble) : opX (formatXYN t x y n) = x := by
  have : (formatXYN t x y n).extractLsb' 8 4 = indexNibble x := by
    ext i hi
    interval_cases i <;> simp [formatXYN]
  simp [opX, this]

@[simp] theorem opY_formatXYN (t : Nibble) (x y : RegNum) (n : Nibble) : opY (formatXYN t x y n) = y := by
  have : (formatXYN t x y n).extractLsb' 4 4 = indexNibble y := by
    ext i hi
    interval_cases i <;> simp [formatXYN]
  simp [opY, this]

@[simp] theorem opN_formatXYN (t : Nibble) (x y : RegNum) (n : Nibble) : opN (formatXYN t x y n) = n := by
  ext i hi
  interval_cases i <;> simp [opN, formatXYN]

/-- The low nibble of the immediate byte is the second-level key of families 0, 8 and E. -/
theorem opN_formatXK (t : Nibble) (x : RegNum) (kk : Byte) : opN (formatXK t x kk) = kk.extractLsb' 0 4 := by
  ext i hi
  interval_cases i <;> simp [opN, formatXK]

/-! ### Bytes -/

/-- A word laid out in bytes reads back. -/
@[simp] theorem beWord_wordBytes (w : Word) : beWord (w.extractLsb' 8 8) (w.extractLsb' 0 8) = w := by
  ext i hi
  interval_cases i <;> simp [beWord]

/-- Decoding the bytes of a word is decoding the word. -/
theorem decodeBytes_wordBytes (w : Word) (rest : List Byte) :
    decodeBytes (wordBytes w ++ rest) = .ok (decodeWord w, rest) := by
  simp [wordBytes, decodeBytes]

end Sys2Proof
end

