-- ==== Sys2Proof/Laws/Display.lean ====
section
/-! SUPPORT. What a sprite draw does to each pixel and to the collision flag (spec 44_display.md R132, R133). -/

namespace Sys2Proof.Machine

@[simp] theorem Framebuffer.pixel_clear (r : Fin 32) (c : Fin 64) : Framebuffer.clear.pixel r c = false := by
  simp [Framebuffer.pixel, Framebuffer.clear]

theorem Framebuffer.pixel_toggle (fb : Framebuffer) (r r' : Fin 32) (c c' : Fin 64) :
    (fb.toggle r c).pixel r' c' = (fb.pixel r' c' ^^ (decide (r' = r) && decide (c' = c))) := by
  by_cases hr : r' = r
  · subst hr
    by_cases hc : c' = c
    · subst hc
      simp [Framebuffer.toggle, Framebuffer.pixel]
    · have : c.val ≠ c'.val := fun e => hc (Fin.ext e.symm)
      simp [Framebuffer.toggle, Framebuffer.pixel, hc, this]
  · have : r.val ≠ r'.val := fun e => hr (Fin.ext e.symm)
    simp [Framebuffer.toggle, Framebuffer.pixel, hr, this]

/-- Two framebuffers with the same pixels are equal. -/
theorem Framebuffer.ext_pixel {f g : Framebuffer} (h : ∀ r c, f.pixel r c = g.pixel r c) : f = g := by
  apply Vector.ext
  intro r hr
  apply Vector.ext
  intro c hc
  exact h ⟨r, hr⟩ ⟨c, hc⟩

/-- Plotting columns that fall on distinct pixels of one framebuffer row: each pixel is flipped once if a set bit falls
on it, and a collision is a set bit over a pixel that was on. -/
theorem foldl_plotPixel (bit : Nat → Bool) (py : Fin 32) (px : Nat → Fin 64) : ∀ (cs : List Nat) (d : Drawing),
    cs.Pairwise (fun a b => px a ≠ px b) →
    (∀ r c, (cs.foldl (fun d j => if bit j then plotPixel d py (px j) else d) d).fb.pixel r c =
        (d.fb.pixel r c ^^ (decide (r = py) && cs.any (fun j => bit j && decide (px j = c))))) ∧
      (cs.foldl (fun d j => if bit j then plotPixel d py (px j) else d) d).coll =
        (d.coll || cs.any (fun j => bit j && d.fb.pixel py (px j))) := by
  intro cs
  induction cs with
  | nil => intro d _; simp
  | cons j cs ih =>
    intro d hd
    obtain ⟨hj, hcs⟩ := List.pairwise_cons.1 hd
    cases hb : bit j with
    | false =>
      simp only [List.foldl_cons, hb, List.any_cons, Bool.false_and, Bool.false_or]
      exact ih d hcs
    | true =>
      obtain ⟨hp, hc⟩ := ih (plotPixel d py (px j)) hcs
      simp only [List.foldl_cons, hb, if_true, List.any_cons, Bool.true_and]
      refine ⟨fun r c => ?_, ?_⟩
      · rw [hp, plotPixel, Framebuffer.pixel_toggle]
        by_cases hr : r = py
        · by_cases hpx : px j = c
          · have hnone : cs.any (fun i => bit i && decide (px i = c)) = false := by
              rw [List.any_eq_false]
              intro i hi
              have := hj i hi
              simp [← hpx, Ne.symm this]
            rw [hnone]
            simp [hr, hpx]
          · simp [hr, hpx, Ne.symm hpx]
        · simp [hr]
      · rw [hc, plotPixel]
        have : cs.any (fun i => bit i && (d.fb.toggle py (px j)).pixel py (px i)) =
            cs.any (fun i => bit i && d.fb.pixel py (px i)) := by
          rw [Bool.eq_iff_iff]
          simp only [List.any_eq_true]
          refine exists_congr fun i => and_congr_right fun hi => ?_
          have := hj i hi
          simp [Framebuffer.pixel_toggle, Ne.symm this]
        simp only [this, Bool.or_assoc]

/-- The bit of a sprite row that falls on column `c` when the row is drawn at column `xs`. -/
def rowCovers (xs : Byte) (row : Byte) (c : Fin 64) : Bool :=
  decide ((c.val + 256 - xs.toNat) % 64 < 8) && row.getLsbD (7 - (c.val + 256 - xs.toNat) % 64)

theorem any_spriteColumns (xs row : Byte) (c : Fin 64) :
    spriteColumns.any (fun j => row.getLsbD (7 - j) && decide (Fin.ofNat 64 (xs.toNat + j) = c)) = rowCovers xs row c := by
  have hx := xs.isLt
  have hc := c.isLt
  rw [Bool.eq_iff_iff, List.any_eq_true]
  simp only [rowCovers, Bool.and_eq_true, decide_eq_true_eq]
  constructor
  · rintro ⟨j, hj, hbit, rfl⟩
    have hj8 : j < 8 := by simp [spriteColumns] at hj; omega
    have e : ((Fin.ofNat 64 (xs.toNat + j)).val + 256 - xs.toNat) % 64 = j := by simp; omega
    rw [e]
    exact ⟨hj8, hbit⟩
  · rintro ⟨hlt, hbit⟩
    refine ⟨_, ?_, hbit, ?_⟩
    · generalize (c.val + 256 - xs.toNat) % 64 = m at hlt
      simp [spriteColumns]
      omega
    · apply Fin.ext
      simp
      omega

theorem pairwise_spriteColumns (xs : Byte) :
    spriteColumns.Pairwise (fun a b => Fin.ofNat 64 (xs.toNat + a) ≠ Fin.ofNat 64 (xs.toNat + b)) := by
  have hlt : spriteColumns.Pairwise (fun a b => a < b ∧ b < 8) := by decide
  refine hlt.imp fun {a b} hab e => ?_
  have := congrArg Fin.val e
  simp at this
  omega

/-- One sprite row flips the pixels of its framebuffer row its set bits fall on. -/
theorem plotRow_pixel (d : Drawing) (xs ys : Byte) (k : Nat) (row : Byte) (r : Fin 32) (c : Fin 64) :
    (plotRow d xs ys k row).fb.pixel r c =
      (d.fb.pixel r c ^^ (decide (r = Fin.ofNat 32 (ys.toNat + k)) && rowCovers xs row c)) := by
  rw [← any_spriteColumns]
  exact (foldl_plotPixel (fun j => row.getLsbD (7 - j)) _ (fun j => Fin.ofNat 64 (xs.toNat + j)) spriteColumns d
    (pairwise_spriteColumns xs)).1 r c

/-- One sprite row collides when a set bit falls on a pixel that is on. -/
theorem plotRow_coll (d : Drawing) (xs ys : Byte) (k : Nat) (row : Byte) :
    (plotRow d xs ys k row).coll = true ↔
      d.coll = true ∨ ∃ c, rowCovers xs row c = true ∧ d.fb.pixel (Fin.ofNat 32 (ys.toNat + k)) c = true := by
  have h := (foldl_plotPixel (fun j => row.getLsbD (7 - j)) (Fin.ofNat 32 (ys.toNat + k))
    (fun j => Fin.ofNat 64 (xs.toNat + j)) spriteColumns d (pairwise_spriteColumns xs)).2
  change (plotRow d xs ys k row).coll = _ at h
  rw [h, Bool.or_eq_true]
  refine or_congr_right ?_
  simp only [← any_spriteColumns, List.any_eq_true, Bool.and_eq_true, decide_eq_true_eq]
  constructor
  · rintro ⟨j, hj, hbit, hon⟩
    exact ⟨_, ⟨j, hj, hbit, rfl⟩, hon⟩
  · rintro ⟨c, ⟨j, hj, hbit, rfl⟩, hon⟩
    exact ⟨j, hj, hbit, hon⟩

/-- The bit of `rows`, its first row drawn at framebuffer row `ys + k`, that falls on a pixel. -/
def rowsCover (xs ys : Byte) (k : Nat) (rows : List Byte) (r : Fin 32) (c : Fin 64) : Bool :=
  rowCovers xs (rows.getD ((r.val + 512 - (ys.toNat + k)) % 32) 0) c

theorem rowsCover_nil (xs ys : Byte) (k : Nat) (r : Fin 32) (c : Fin 64) : rowsCover xs ys k [] r c = false := by
  simp [rowsCover, rowCovers]

/-- A list of rows covers what its first row covers on its framebuffer row, and elsewhere what the others cover. -/
theorem rowsCover_cons (xs ys : Byte) (k : Nat) (row : Byte) (rows : List Byte) (hk : k + rows.length < 32) (r : Fin 32)
    (c : Fin 64) :
    rowsCover xs ys k (row :: rows) r c =
      if r = Fin.ofNat 32 (ys.toNat + k) then rowCovers xs row c else rowsCover xs ys (k + 1) rows r c := by
  have hy := ys.isLt
  have hr := r.isLt
  unfold rowsCover
  by_cases h : r = Fin.ofNat 32 (ys.toNat + k)
  · have hv := congrArg Fin.val h
    simp at hv
    have e : (r.val + 512 - (ys.toNat + k)) % 32 = 0 := by omega
    rw [if_pos h, e]
    rfl
  · have hv : r.val ≠ (ys.toNat + k) % 32 := fun e => h (Fin.ext (by simpa using e))
    have e : (r.val + 512 - (ys.toNat + k)) % 32 = (r.val + 512 - (ys.toNat + (k + 1))) % 32 + 1 := by omega
    rw [if_neg h, e]
    rfl

theorem rowsCover_first_row (xs ys : Byte) (k : Nat) (rows : List Byte) (hk : k + rows.length < 32) (c : Fin 64) :
    rowsCover xs ys (k + 1) rows (Fin.ofNat 32 (ys.toNat + k)) c = false := by
  have hy := ys.isLt
  have e : ((Fin.ofNat 32 (ys.toNat + k)).val + 512 - (ys.toNat + (k + 1))) % 32 = 31 := by simp; omega
  simp only [rowsCover, e]
  rw [List.getD_eq_default _ _ (by omega)]
  simp [rowCovers]

theorem plotRows_spec (xs ys : Byte) : ∀ (rows : List Byte) (k : Nat) (d : Drawing), k + rows.length ≤ 32 →
    (∀ r c, (plotRows d xs ys k rows).fb.pixel r c = (d.fb.pixel r c ^^ rowsCover xs ys k rows r c)) ∧
      ((plotRows d xs ys k rows).coll = true ↔
        d.coll = true ∨ ∃ r c, rowsCover xs ys k rows r c = true ∧ d.fb.pixel r c = true) := by
  intro rows
  induction rows with
  | nil => intro k d _; simp [plotRows, rowsCover_nil]
  | cons row rows ih =>
    intro k d hk
    simp only [List.length_cons] at hk
    have hk' : k + rows.length < 32 := by omega
    obtain ⟨hp, hc⟩ := ih (k + 1) (plotRow d xs ys k row) (by omega)
    refine ⟨fun r c => ?_, ?_⟩
    · rw [plotRows, hp, plotRow_pixel, rowsCover_cons _ _ _ _ _ hk']
      by_cases h : r = Fin.ofNat 32 (ys.toNat + k)
      · rw [if_pos h, h, rowsCover_first_row _ _ _ _ hk']
        simp
      · rw [if_neg h, decide_eq_false h, Bool.false_and, Bool.xor_false]
    · rw [plotRows, hc, plotRow_coll, or_assoc]
      refine or_congr_right ?_
      constructor
      · rintro (⟨c, hcov, hon⟩ | ⟨r, c, hcov, hon⟩)
        · exact ⟨_, c, by rw [rowsCover_cons _ _ _ _ _ hk', if_pos rfl]; exact hcov, hon⟩
        · have h : r ≠ Fin.ofNat 32 (ys.toNat + k) := by
            rintro rfl
            rw [rowsCover_first_row _ _ _ _ hk'] at hcov
            cases hcov
          refine ⟨r, c, by rw [rowsCover_cons _ _ _ _ _ hk', if_neg h]; exact hcov, ?_⟩
          rwa [plotRow_pixel, decide_eq_false h, Bool.false_and, Bool.xor_false] at hon
      · rintro ⟨r, c, hcov, hon⟩
        rw [rowsCover_cons _ _ _ _ _ hk'] at hcov
        by_cases h : r = Fin.ofNat 32 (ys.toNat + k)
        · subst h
          rw [if_pos rfl] at hcov
          exact .inl ⟨c, hcov, hon⟩
        · rw [if_neg h] at hcov
          refine .inr ⟨r, c, hcov, ?_⟩
          rwa [plotRow_pixel, decide_eq_false h, Bool.false_and, Bool.xor_false]

theorem rowsCover_zero (xs ys : Byte) (rows : List Byte) (r : Fin 32) (c : Fin 64) :
    rowsCover xs ys 0 rows r c = spriteCovers xs ys rows r c := by
  have hy := ys.isLt
  have e : (r.val + 512 - (ys.toNat + 0)) % 32 = (r.val + 256 - ys.toNat) % 32 := by omega
  simp only [rowsCover, e, rowCovers, spriteCovers]

/-- A draw of at most 32 rows flips exactly the pixels the sprite's set bits fall on. -/
theorem drawSprite_pixel (fb : Framebuffer) (xs ys : Byte) (rows : List Byte) (h : rows.length ≤ 32) (r : Fin 32)
    (c : Fin 64) :
    (drawSprite fb xs ys rows).fb.pixel r c = (fb.pixel r c ^^ spriteCovers xs ys rows r c) := by
  rw [← rowsCover_zero]
  exact (plotRows_spec xs ys rows 0 ⟨fb, false⟩ (by omega)).1 r c

/-- A draw of at most 32 rows collides exactly when a set bit falls on a pixel that is on. -/
theorem drawSprite_coll (fb : Framebuffer) (xs ys : Byte) (rows : List Byte) (h : rows.length ≤ 32) :
    (drawSprite fb xs ys rows).coll = true ↔ ∃ r c, spriteCovers xs ys rows r c = true ∧ fb.pixel r c = true := by
  simp only [← rowsCover_zero]
  have := (plotRows_spec xs ys rows 0 ⟨fb, false⟩ (by omega)).2
  rw [drawSprite, this]
  simp

end Sys2Proof.Machine
end

