-- ==== Sys2Proof/Laws/Memory.lean ====
section
/-! SUPPORT. What each operation of the memory contract does: read after write, and the canonical form kept
(spec 20_memory.md R32 to R38). -/

namespace Sys2Proof.Machine

theorem Memory.byteAt_nil (a : Nat) : Memory.byteAt [] a = resetByte a := rfl

theorem Memory.byteAt_cons (k : Nat) (b : Byte) (m : Memory) (a : Nat) :
    Memory.byteAt ((k, b) :: m) a = if k = a then b else m.byteAt a := rfl

theorem Memory.byteAt_filter_other (m : Memory) {a a' : Nat} (h : a' ≠ a) :
    Memory.byteAt (m.filter (fun cell => cell.1 != a)) a' = m.byteAt a' := by
  induction m with
  | nil => rfl
  | cons cell m ih =>
    obtain ⟨k, b⟩ := cell
    by_cases hk : k = a
    · simp [hk, Memory.byteAt_cons, Ne.symm h, ih]
    · simp [hk, Memory.byteAt_cons, ih]

theorem Memory.byteAt_filter_same (m : Memory) (a : Nat) :
    Memory.byteAt (m.filter (fun cell => cell.1 != a)) a = resetByte a := by
  induction m with
  | nil => rfl
  | cons cell m ih =>
    obtain ⟨k, b⟩ := cell
    by_cases hk : k = a
    · simp [hk, ih]
    · simp [hk, Memory.byteAt_cons, ih]

theorem Memory.byteAt_insertCell_other (m : Memory) (b : Byte) {a a' : Nat} (h : a' ≠ a) :
    (Memory.insertCell a b m).byteAt a' = m.byteAt a' := by
  induction m with
  | nil => simp [Memory.insertCell, Memory.byteAt_cons, Ne.symm h]
  | cons cell m ih =>
    obtain ⟨k, c⟩ := cell
    simp only [Memory.insertCell]
    split <;> simp [Memory.byteAt_cons, Ne.symm h, ih]

theorem Memory.byteAt_insertCell_same (m : Memory) (b : Byte) {a : Nat} (h : ∀ cell ∈ m, cell.1 ≠ a) :
    (Memory.insertCell a b m).byteAt a = b := by
  induction m with
  | nil => simp [Memory.insertCell, Memory.byteAt_cons]
  | cons cell m ih =>
    obtain ⟨k, c⟩ := cell
    have hk : k ≠ a := h (k, c) (by simp)
    simp only [Memory.insertCell]
    split
    · simp [Memory.byteAt_cons]
    · simp [Memory.byteAt_cons, hk, ih fun c hc => h c (by simp [hc])]

/-- A byte written reads back. -/
@[simp] theorem Memory.byteAt_put_same (m : Memory) (a : Nat) (b : Byte) : (m.put a b).byteAt a = b := by
  unfold Memory.put
  split
  · rename_i h; rw [Memory.byteAt_filter_same, h]
  · exact Memory.byteAt_insertCell_same _ _ (by simp)

/-- A write leaves every other byte alone. -/
theorem Memory.byteAt_put_other (m : Memory) (b : Byte) {a a' : Nat} (h : a' ≠ a) :
    (m.put a b).byteAt a' = m.byteAt a' := by
  unfold Memory.put
  split
  · exact Memory.byteAt_filter_other m h
  · rw [Memory.byteAt_insertCell_other _ _ h, Memory.byteAt_filter_other m h]

theorem Memory.byteAt_put (m : Memory) (a a' : Nat) (b : Byte) :
    (m.put a b).byteAt a' = if a' = a then b else m.byteAt a' := by
  split
  · subst a'; simp
  · rename_i h; exact Memory.byteAt_put_other m b h

/-- The bytes of a block after a block write: the window holds what was written, the rest is as before. -/
theorem Memory.byteAt_putBytes (bs : List Byte) : ∀ (m : Memory) (a x : Nat),
    (m.putBytes a bs).byteAt x = if h : a ≤ x ∧ x - a < bs.length then bs[x - a]'h.2 else m.byteAt x := by
  induction bs with
  | nil => intro m a x; simp [Memory.putBytes]
  | cons b bs ih =>
    intro m a x
    rw [Memory.putBytes, ih, Memory.byteAt_put]
    by_cases hx : x = a
    · subst hx
      have : ¬ x + 1 ≤ x := by omega
      simp [this]
    · by_cases hlt : a + 1 ≤ x ∧ x - (a + 1) < bs.length
      · have h2 : a ≤ x ∧ x - a < (b :: bs).length := by simp; omega
        obtain ⟨n, rfl⟩ : ∃ n, x = a + 1 + n := ⟨x - (a + 1), by omega⟩
        have e1 : a + 1 + n - (a + 1) = n := by omega
        have e2 : a + 1 + n - a = n + 1 := by omega
        simp only [e1, e2] at hlt h2 ⊢
        simp [hlt, h2]
      · have h2 : ¬ (a ≤ x ∧ x - a < (b :: bs).length) := by simp; omega
        rw [dif_neg hlt, dif_neg h2, if_neg hx]

/-- A block write leaves every byte outside its window alone. -/
theorem Memory.byteAt_putBytes_outside (m : Memory) (a x : Nat) (bs : List Byte) (h : x < a ∨ a + bs.length ≤ x) :
    (m.putBytes a bs).byteAt x = m.byteAt x := by
  rw [Memory.byteAt_putBytes, dif_neg (by omega)]

@[simp] theorem Memory.length_bytesFrom (m : Memory) (len : Nat) : ∀ a, (m.bytesFrom a len).length = len := by
  induction len with
  | zero => intro a; rfl
  | succ len ih => intro a; simp [Memory.bytesFrom, ih]

theorem Memory.getElem_bytesFrom (m : Memory) (len : Nat) : ∀ (a j : Nat) (h : j < (m.bytesFrom a len).length),
    (m.bytesFrom a len)[j] = m.byteAt (a + j) := by
  induction len with
  | zero => intro a j h; simp [Memory.bytesFrom] at h
  | succ len ih =>
    intro a j h
    cases j with
    | zero => rfl
    | succ j =>
      simp only [Memory.bytesFrom, List.getElem_cons_succ]
      rw [ih]
      congr 1
      omega

/-- A block read after a block write of the same window returns the bytes written (20_memory.md R38). -/
theorem Memory.bytesFrom_putBytes (m : Memory) (a : Nat) (bs : List Byte) :
    (m.putBytes a bs).bytesFrom a bs.length = bs := by
  apply List.ext_getElem
  · simp
  · intro j h1 h2
    rw [Memory.getElem_bytesFrom, Memory.byteAt_putBytes]
    have : a ≤ a + j ∧ a + j - a < bs.length := by omega
    simp [h2]

/-! ### The bounds check -/

theorem inRange_iff (addr : Word) (len : Nat) : inRange addr len = true ↔ addr.toNat + len ≤ 4096 := by
  simp [inRange]

theorem Memory.readBlock_ok (m : Memory) {addr : Word} {len : Nat} (h : addr.toNat + len ≤ 4096) :
    m.readBlock addr len = .ok (m.bytesFrom addr.toNat len) := by
  simp [Memory.readBlock, (inRange_iff addr len).2 h]

theorem Memory.readBlock_error (m : Memory) {addr : Word} {len : Nat} (h : 4096 < addr.toNat + len) :
    m.readBlock addr len = .error (.outOfRange addr len) := by
  have : ¬ inRange addr len = true := by rw [inRange_iff]; omega
  simp [Memory.readBlock, this]

theorem Memory.writeBlock_ok (m : Memory) {addr : Word} {bs : List Byte} (h : addr.toNat + bs.length ≤ 4096) :
    m.writeBlock addr bs = .ok (m.putBytes addr.toNat bs) := by
  simp [Memory.writeBlock, (inRange_iff addr bs.length).2 h]

theorem Memory.writeBlock_error (m : Memory) {addr : Word} {bs : List Byte} (h : 4096 < addr.toNat + bs.length) :
    m.writeBlock addr bs = .error (.outOfRange addr bs.length) := by
  have : ¬ inRange addr bs.length = true := by rw [inRange_iff]; omega
  simp [Memory.writeBlock, this]

theorem Memory.readWord_ok (m : Memory) {addr : Word} (h : addr.toNat + 2 ≤ 4096) :
    m.readWord addr = .ok (beWord (m.byteAt addr.toNat) (m.byteAt (addr.toNat + 1))) := by
  simp [Memory.readWord, (inRange_iff addr 2).2 h]

theorem Memory.readWord_error (m : Memory) {addr : Word} (h : 4096 < addr.toNat + 2) :
    m.readWord addr = .error (.outOfRange addr 2) := by
  have : ¬ inRange addr 2 = true := by rw [inRange_iff]; omega
  simp [Memory.readWord, this]

theorem Memory.readByte_ok (m : Memory) {addr : Word} (h : addr.toNat + 1 ≤ 4096) :
    m.readByte addr = .ok (m.byteAt addr.toNat) := by
  simp [Memory.readByte, (inRange_iff addr 1).2 h]

theorem Memory.readByte_error (m : Memory) {addr : Word} (h : 4096 < addr.toNat + 1) :
    m.readByte addr = .error (.outOfRange addr 1) := by
  have : ¬ inRange addr 1 = true := by rw [inRange_iff]; omega
  simp [Memory.readByte, this]

/-! ### The canonical form -/

theorem Memory.wfFrom_cons (lo k : Nat) (b : Byte) (m : Memory) :
    Memory.wfFrom lo ((k, b) :: m) = true ↔
      lo ≤ k ∧ k < 4096 ∧ b ≠ resetByte k ∧ Memory.wfFrom (k + 1) m = true := by
  simp [Memory.wfFrom, and_assoc]

theorem Memory.wfFrom_weaken (m : Memory) {lo lo' : Nat} (hle : lo ≤ lo') (h : Memory.wfFrom lo' m = true) :
    Memory.wfFrom lo m = true := by
  cases m with
  | nil => rfl
  | cons cell m =>
    obtain ⟨k, b⟩ := cell
    rw [Memory.wfFrom_cons] at h ⊢
    exact ⟨by omega, h.2⟩

theorem Memory.wfFrom_filter (m : Memory) (a : Nat) : ∀ lo, Memory.wfFrom lo m = true →
    Memory.wfFrom lo (m.filter (fun cell => cell.1 != a)) = true := by
  induction m with
  | nil => intro lo _; rfl
  | cons cell m ih =>
    intro lo h
    obtain ⟨k, b⟩ := cell
    rw [Memory.wfFrom_cons] at h
    by_cases hk : k = a
    · simp only [hk, bne_self_eq_false, Bool.false_eq_true, not_false_eq_true, List.filter_cons_of_neg]
      exact Memory.wfFrom_weaken _ (by omega) (ih (k + 1) h.2.2.2)
    · have : ((k, b) :: m).filter (fun cell => cell.1 != a) = (k, b) :: m.filter (fun cell => cell.1 != a) := by
        simp [hk]
      rw [this, Memory.wfFrom_cons]
      exact ⟨h.1, h.2.1, h.2.2.1, ih _ h.2.2.2⟩

theorem Memory.wfFrom_insertCell (m : Memory) {a : Nat} {b : Byte} (ha : a < 4096) (hb : b ≠ resetByte a) :
    ∀ lo, lo ≤ a → Memory.wfFrom lo m = true → (∀ cell ∈ m, cell.1 ≠ a) →
      Memory.wfFrom lo (Memory.insertCell a b m) = true := by
  induction m with
  | nil =>
    intro lo hlo _ _
    rw [Memory.insertCell, Memory.wfFrom_cons]
    exact ⟨hlo, ha, hb, rfl⟩
  | cons cell m ih =>
    intro lo hlo h hne
    obtain ⟨k, c⟩ := cell
    have hk : k ≠ a := hne (k, c) (by simp)
    rw [Memory.wfFrom_cons] at h
    simp only [Memory.insertCell]
    split
    · rw [Memory.wfFrom_cons, Memory.wfFrom_cons]
      exact ⟨hlo, ha, hb, by omega, h.2⟩
    · rw [Memory.wfFrom_cons]
      exact ⟨h.1, h.2.1, h.2.2.1, ih _ (by omega) h.2.2.2 fun c hc => hne c (by simp [hc])⟩

/-- A write to an address of the memory keeps the canonical form. -/
theorem Memory.wf_put (m : Memory) {a : Nat} (b : Byte) (ha : a < 4096) (h : m.wf = true) : (m.put a b).wf = true := by
  unfold Memory.put
  split
  · exact Memory.wfFrom_filter m a 0 h
  · rename_i hb
    exact Memory.wfFrom_insertCell _ ha hb 0 (Nat.zero_le a) (Memory.wfFrom_filter m a 0 h) (by simp)

/-- A block write inside the memory keeps the canonical form. -/
theorem Memory.wf_putBytes (bs : List Byte) : ∀ (m : Memory) (a : Nat), a + bs.length ≤ 4096 → m.wf = true →
    (m.putBytes a bs).wf = true := by
  induction bs with
  | nil => intro m a _ h; exact h
  | cons b bs ih =>
    intro m a hle h
    simp only [List.length_cons] at hle
    exact ih _ _ (by omega) (Memory.wf_put m b (by omega) h)

/-- Every write of the contract keeps the canonical form. -/
theorem Memory.wf_writeBlock {m m' : Memory} {addr : Word} {bs : List Byte} (h : m.wf = true)
    (hw : m.writeBlock addr bs = .ok m') : m'.wf = true := by
  by_cases hr : addr.toNat + bs.length ≤ 4096
  · rw [Memory.writeBlock_ok m hr] at hw
    cases hw
    exact Memory.wf_putBytes bs m _ hr h
  · rw [Memory.writeBlock_error m (by omega)] at hw
    cases hw

theorem State.reset_wf : State.reset.mem.wf = true := rfl

end Sys2Proof.Machine
end

