-- ==== Sys2Proof/Laws/State.lean ====
section
/-! SUPPORT. For each named update of the state, what each field holds after it. -/

namespace Sys2Proof.Machine

variable (s : State)

/-! ### `setReg` -/

@[simp] theorem State.setReg_v (r : RegNum) (b : Byte) : (s.setReg r b).v = s.v.set r b := rfl
@[simp] theorem State.setReg_i (r : RegNum) (b : Byte) : (s.setReg r b).i = s.i := rfl
@[simp] theorem State.setReg_pc (r : RegNum) (b : Byte) : (s.setReg r b).pc = s.pc := rfl
@[simp] theorem State.setReg_dt (r : RegNum) (b : Byte) : (s.setReg r b).dt = s.dt := rfl
@[simp] theorem State.setReg_st (r : RegNum) (b : Byte) : (s.setReg r b).st = s.st := rfl
@[simp] theorem State.setReg_sp (r : RegNum) (b : Byte) : (s.setReg r b).sp = s.sp := rfl
@[simp] theorem State.setReg_stk (r : RegNum) (b : Byte) : (s.setReg r b).stk = s.stk := rfl
@[simp] theorem State.setReg_mem (r : RegNum) (b : Byte) : (s.setReg r b).mem = s.mem := rfl
@[simp] theorem State.setReg_fb (r : RegNum) (b : Byte) : (s.setReg r b).fb = s.fb := rfl
@[simp] theorem State.setReg_key (r : RegNum) (b : Byte) : (s.setReg r b).key = s.key := rfl
@[simp] theorem State.setReg_wait (r : RegNum) (b : Byte) : (s.setReg r b).wait = s.wait := rfl
@[simp] theorem State.setReg_waitReg (r : RegNum) (b : Byte) : (s.setReg r b).waitReg = s.waitReg := rfl
@[simp] theorem State.setReg_faulted (r : RegNum) (b : Byte) : (s.setReg r b).faulted = s.faulted := rfl
@[simp] theorem State.setReg_faultCause (r : RegNum) (b : Byte) : (s.setReg r b).faultCause = s.faultCause := rfl
@[simp] theorem State.setReg_faultAddr (r : RegNum) (b : Byte) : (s.setReg r b).faultAddr = s.faultAddr := rfl
@[simp] theorem State.setReg_faultLen (r : RegNum) (b : Byte) : (s.setReg r b).faultLen = s.faultLen := rfl
@[simp] theorem State.setReg_draws (r : RegNum) (b : Byte) : (s.setReg r b).draws = s.draws := rfl

/-! ### `setI` -/

@[simp] theorem State.setI_v (w : Word) : (s.setI w).v = s.v := rfl
@[simp] theorem State.setI_i (w : Word) : (s.setI w).i = w := rfl
@[simp] theorem State.setI_pc (w : Word) : (s.setI w).pc = s.pc := rfl
@[simp] theorem State.setI_dt (w : Word) : (s.setI w).dt = s.dt := rfl
@[simp] theorem State.setI_st (w : Word) : (s.setI w).st = s.st := rfl
@[simp] theorem State.setI_sp (w : Word) : (s.setI w).sp = s.sp := rfl
@[simp] theorem State.setI_stk (w : Word) : (s.setI w).stk = s.stk := rfl
@[simp] theorem State.setI_mem (w : Word) : (s.setI w).mem = s.mem := rfl
@[simp] theorem State.setI_fb (w : Word) : (s.setI w).fb = s.fb := rfl
@[simp] theorem State.setI_key (w : Word) : (s.setI w).key = s.key := rfl
@[simp] theorem State.setI_wait (w : Word) : (s.setI w).wait = s.wait := rfl
@[simp] theorem State.setI_waitReg (w : Word) : (s.setI w).waitReg = s.waitReg := rfl
@[simp] theorem State.setI_faulted (w : Word) : (s.setI w).faulted = s.faulted := rfl
@[simp] theorem State.setI_faultCause (w : Word) : (s.setI w).faultCause = s.faultCause := rfl
@[simp] theorem State.setI_faultAddr (w : Word) : (s.setI w).faultAddr = s.faultAddr := rfl
@[simp] theorem State.setI_faultLen (w : Word) : (s.setI w).faultLen = s.faultLen := rfl
@[simp] theorem State.setI_draws (w : Word) : (s.setI w).draws = s.draws := rfl

/-! ### `setPc` -/

@[simp] theorem State.setPc_v (w : Word) : (s.setPc w).v = s.v := rfl
@[simp] theorem State.setPc_i (w : Word) : (s.setPc w).i = s.i := rfl
@[simp] theorem State.setPc_pc (w : Word) : (s.setPc w).pc = w := rfl
@[simp] theorem State.setPc_dt (w : Word) : (s.setPc w).dt = s.dt := rfl
@[simp] theorem State.setPc_st (w : Word) : (s.setPc w).st = s.st := rfl
@[simp] theorem State.setPc_sp (w : Word) : (s.setPc w).sp = s.sp := rfl
@[simp] theorem State.setPc_stk (w : Word) : (s.setPc w).stk = s.stk := rfl
@[simp] theorem State.setPc_mem (w : Word) : (s.setPc w).mem = s.mem := rfl
@[simp] theorem State.setPc_fb (w : Word) : (s.setPc w).fb = s.fb := rfl
@[simp] theorem State.setPc_key (w : Word) : (s.setPc w).key = s.key := rfl
@[simp] theorem State.setPc_wait (w : Word) : (s.setPc w).wait = s.wait := rfl
@[simp] theorem State.setPc_waitReg (w : Word) : (s.setPc w).waitReg = s.waitReg := rfl
@[simp] theorem State.setPc_faulted (w : Word) : (s.setPc w).faulted = s.faulted := rfl
@[simp] theorem State.setPc_faultCause (w : Word) : (s.setPc w).faultCause = s.faultCause := rfl
@[simp] theorem State.setPc_faultAddr (w : Word) : (s.setPc w).faultAddr = s.faultAddr := rfl
@[simp] theorem State.setPc_faultLen (w : Word) : (s.setPc w).faultLen = s.faultLen := rfl
@[simp] theorem State.setPc_draws (w : Word) : (s.setPc w).draws = s.draws := rfl

/-! ### `setDt` -/

@[simp] theorem State.setDt_v (b : Byte) : (s.setDt b).v = s.v := rfl
@[simp] theorem State.setDt_i (b : Byte) : (s.setDt b).i = s.i := rfl
@[simp] theorem State.setDt_pc (b : Byte) : (s.setDt b).pc = s.pc := rfl
@[simp] theorem State.setDt_dt (b : Byte) : (s.setDt b).dt = b := rfl
@[simp] theorem State.setDt_st (b : Byte) : (s.setDt b).st = s.st := rfl
@[simp] theorem State.setDt_sp (b : Byte) : (s.setDt b).sp = s.sp := rfl
@[simp] theorem State.setDt_stk (b : Byte) : (s.setDt b).stk = s.stk := rfl
@[simp] theorem State.setDt_mem (b : Byte) : (s.setDt b).mem = s.mem := rfl
@[simp] theorem State.setDt_fb (b : Byte) : (s.setDt b).fb = s.fb := rfl
@[simp] theorem State.setDt_key (b : Byte) : (s.setDt b).key = s.key := rfl
@[simp] theorem State.setDt_wait (b : Byte) : (s.setDt b).wait = s.wait := rfl
@[simp] theorem State.setDt_waitReg (b : Byte) : (s.setDt b).waitReg = s.waitReg := rfl
@[simp] theorem State.setDt_faulted (b : Byte) : (s.setDt b).faulted = s.faulted := rfl
@[simp] theorem State.setDt_faultCause (b : Byte) : (s.setDt b).faultCause = s.faultCause := rfl
@[simp] theorem State.setDt_faultAddr (b : Byte) : (s.setDt b).faultAddr = s.faultAddr := rfl
@[simp] theorem State.setDt_faultLen (b : Byte) : (s.setDt b).faultLen = s.faultLen := rfl
@[simp] theorem State.setDt_draws (b : Byte) : (s.setDt b).draws = s.draws := rfl

/-! ### `setSt` -/

@[simp] theorem State.setSt_v (b : Byte) : (s.setSt b).v = s.v := rfl
@[simp] theorem State.setSt_i (b : Byte) : (s.setSt b).i = s.i := rfl
@[simp] theorem State.setSt_pc (b : Byte) : (s.setSt b).pc = s.pc := rfl
@[simp] theorem State.setSt_dt (b : Byte) : (s.setSt b).dt = s.dt := rfl
@[simp] theorem State.setSt_st (b : Byte) : (s.setSt b).st = b := rfl
@[simp] theorem State.setSt_sp (b : Byte) : (s.setSt b).sp = s.sp := rfl
@[simp] theorem State.setSt_stk (b : Byte) : (s.setSt b).stk = s.stk := rfl
@[simp] theorem State.setSt_mem (b : Byte) : (s.setSt b).mem = s.mem := rfl
@[simp] theorem State.setSt_fb (b : Byte) : (s.setSt b).fb = s.fb := rfl
@[simp] theorem State.setSt_key (b : Byte) : (s.setSt b).key = s.key := rfl
@[simp] theorem State.setSt_wait (b : Byte) : (s.setSt b).wait = s.wait := rfl
@[simp] theorem State.setSt_waitReg (b : Byte) : (s.setSt b).waitReg = s.waitReg := rfl
@[simp] theorem State.setSt_faulted (b : Byte) : (s.setSt b).faulted = s.faulted := rfl
@[simp] theorem State.setSt_faultCause (b : Byte) : (s.setSt b).faultCause = s.faultCause := rfl
@[simp] theorem State.setSt_faultAddr (b : Byte) : (s.setSt b).faultAddr = s.faultAddr := rfl
@[simp] theorem State.setSt_faultLen (b : Byte) : (s.setSt b).faultLen = s.faultLen := rfl
@[simp] theorem State.setSt_draws (b : Byte) : (s.setSt b).draws = s.draws := rfl

/-! ### `setMem` -/

@[simp] theorem State.setMem_v (m : Memory) : (s.setMem m).v = s.v := rfl
@[simp] theorem State.setMem_i (m : Memory) : (s.setMem m).i = s.i := rfl
@[simp] theorem State.setMem_pc (m : Memory) : (s.setMem m).pc = s.pc := rfl
@[simp] theorem State.setMem_dt (m : Memory) : (s.setMem m).dt = s.dt := rfl
@[simp] theorem State.setMem_st (m : Memory) : (s.setMem m).st = s.st := rfl
@[simp] theorem State.setMem_sp (m : Memory) : (s.setMem m).sp = s.sp := rfl
@[simp] theorem State.setMem_stk (m : Memory) : (s.setMem m).stk = s.stk := rfl
@[simp] theorem State.setMem_mem (m : Memory) : (s.setMem m).mem = m := rfl
@[simp] theorem State.setMem_fb (m : Memory) : (s.setMem m).fb = s.fb := rfl
@[simp] theorem State.setMem_key (m : Memory) : (s.setMem m).key = s.key := rfl
@[simp] theorem State.setMem_wait (m : Memory) : (s.setMem m).wait = s.wait := rfl
@[simp] theorem State.setMem_waitReg (m : Memory) : (s.setMem m).waitReg = s.waitReg := rfl
@[simp] theorem State.setMem_faulted (m : Memory) : (s.setMem m).faulted = s.faulted := rfl
@[simp] theorem State.setMem_faultCause (m : Memory) : (s.setMem m).faultCause = s.faultCause := rfl
@[simp] theorem State.setMem_faultAddr (m : Memory) : (s.setMem m).faultAddr = s.faultAddr := rfl
@[simp] theorem State.setMem_faultLen (m : Memory) : (s.setMem m).faultLen = s.faultLen := rfl
@[simp] theorem State.setMem_draws (m : Memory) : (s.setMem m).draws = s.draws := rfl

/-! ### `setFb` -/

@[simp] theorem State.setFb_v (f : Framebuffer) : (s.setFb f).v = s.v := rfl
@[simp] theorem State.setFb_i (f : Framebuffer) : (s.setFb f).i = s.i := rfl
@[simp] theorem State.setFb_pc (f : Framebuffer) : (s.setFb f).pc = s.pc := rfl
@[simp] theorem State.setFb_dt (f : Framebuffer) : (s.setFb f).dt = s.dt := rfl
@[simp] theorem State.setFb_st (f : Framebuffer) : (s.setFb f).st = s.st := rfl
@[simp] theorem State.setFb_sp (f : Framebuffer) : (s.setFb f).sp = s.sp := rfl
@[simp] theorem State.setFb_stk (f : Framebuffer) : (s.setFb f).stk = s.stk := rfl
@[simp] theorem State.setFb_mem (f : Framebuffer) : (s.setFb f).mem = s.mem := rfl
@[simp] theorem State.setFb_fb (f : Framebuffer) : (s.setFb f).fb = f := rfl
@[simp] theorem State.setFb_key (f : Framebuffer) : (s.setFb f).key = s.key := rfl
@[simp] theorem State.setFb_wait (f : Framebuffer) : (s.setFb f).wait = s.wait := rfl
@[simp] theorem State.setFb_waitReg (f : Framebuffer) : (s.setFb f).waitReg = s.waitReg := rfl
@[simp] theorem State.setFb_faulted (f : Framebuffer) : (s.setFb f).faulted = s.faulted := rfl
@[simp] theorem State.setFb_faultCause (f : Framebuffer) : (s.setFb f).faultCause = s.faultCause := rfl
@[simp] theorem State.setFb_faultAddr (f : Framebuffer) : (s.setFb f).faultAddr = s.faultAddr := rfl
@[simp] theorem State.setFb_faultLen (f : Framebuffer) : (s.setFb f).faultLen = s.faultLen := rfl
@[simp] theorem State.setFb_draws (f : Framebuffer) : (s.setFb f).draws = s.draws := rfl

/-! ### `stepPc` -/

@[simp] theorem State.stepPc_v : (s.stepPc).v = s.v := rfl
@[simp] theorem State.stepPc_i : (s.stepPc).i = s.i := rfl
@[simp] theorem State.stepPc_pc : (s.stepPc).pc = s.pc + 2 := rfl
@[simp] theorem State.stepPc_dt : (s.stepPc).dt = s.dt := rfl
@[simp] theorem State.stepPc_st : (s.stepPc).st = s.st := rfl
@[simp] theorem State.stepPc_sp : (s.stepPc).sp = s.sp := rfl
@[simp] theorem State.stepPc_stk : (s.stepPc).stk = s.stk := rfl
@[simp] theorem State.stepPc_mem : (s.stepPc).mem = s.mem := rfl
@[simp] theorem State.stepPc_fb : (s.stepPc).fb = s.fb := rfl
@[simp] theorem State.stepPc_key : (s.stepPc).key = s.key := rfl
@[simp] theorem State.stepPc_wait : (s.stepPc).wait = s.wait := rfl
@[simp] theorem State.stepPc_waitReg : (s.stepPc).waitReg = s.waitReg := rfl
@[simp] theorem State.stepPc_faulted : (s.stepPc).faulted = s.faulted := rfl
@[simp] theorem State.stepPc_faultCause : (s.stepPc).faultCause = s.faultCause := rfl
@[simp] theorem State.stepPc_faultAddr : (s.stepPc).faultAddr = s.faultAddr := rfl
@[simp] theorem State.stepPc_faultLen : (s.stepPc).faultLen = s.faultLen := rfl
@[simp] theorem State.stepPc_draws : (s.stepPc).draws = s.draws := rfl

/-! ### `startWait` -/

@[simp] theorem State.startWait_v (x : RegNum) : (s.startWait x).v = s.v := rfl
@[simp] theorem State.startWait_i (x : RegNum) : (s.startWait x).i = s.i := rfl
@[simp] theorem State.startWait_pc (x : RegNum) : (s.startWait x).pc = s.pc := rfl
@[simp] theorem State.startWait_dt (x : RegNum) : (s.startWait x).dt = s.dt := rfl
@[simp] theorem State.startWait_st (x : RegNum) : (s.startWait x).st = s.st := rfl
@[simp] theorem State.startWait_sp (x : RegNum) : (s.startWait x).sp = s.sp := rfl
@[simp] theorem State.startWait_stk (x : RegNum) : (s.startWait x).stk = s.stk := rfl
@[simp] theorem State.startWait_mem (x : RegNum) : (s.startWait x).mem = s.mem := rfl
@[simp] theorem State.startWait_fb (x : RegNum) : (s.startWait x).fb = s.fb := rfl
@[simp] theorem State.startWait_key (x : RegNum) : (s.startWait x).key = s.key := rfl
@[simp] theorem State.startWait_wait (x : RegNum) : (s.startWait x).wait = true := rfl
@[simp] theorem State.startWait_waitReg (x : RegNum) : (s.startWait x).waitReg = x := rfl
@[simp] theorem State.startWait_faulted (x : RegNum) : (s.startWait x).faulted = s.faulted := rfl
@[simp] theorem State.startWait_faultCause (x : RegNum) : (s.startWait x).faultCause = s.faultCause := rfl
@[simp] theorem State.startWait_faultAddr (x : RegNum) : (s.startWait x).faultAddr = s.faultAddr := rfl
@[simp] theorem State.startWait_faultLen (x : RegNum) : (s.startWait x).faultLen = s.faultLen := rfl
@[simp] theorem State.startWait_draws (x : RegNum) : (s.startWait x).draws = s.draws := rfl

/-! ### `endWait` -/

@[simp] theorem State.endWait_v : (s.endWait).v = s.v := rfl
@[simp] theorem State.endWait_i : (s.endWait).i = s.i := rfl
@[simp] theorem State.endWait_pc : (s.endWait).pc = s.pc := rfl
@[simp] theorem State.endWait_dt : (s.endWait).dt = s.dt := rfl
@[simp] theorem State.endWait_st : (s.endWait).st = s.st := rfl
@[simp] theorem State.endWait_sp : (s.endWait).sp = s.sp := rfl
@[simp] theorem State.endWait_stk : (s.endWait).stk = s.stk := rfl
@[simp] theorem State.endWait_mem : (s.endWait).mem = s.mem := rfl
@[simp] theorem State.endWait_fb : (s.endWait).fb = s.fb := rfl
@[simp] theorem State.endWait_key : (s.endWait).key = s.key := rfl
@[simp] theorem State.endWait_wait : (s.endWait).wait = false := rfl
@[simp] theorem State.endWait_waitReg : (s.endWait).waitReg = 0 := rfl
@[simp] theorem State.endWait_faulted : (s.endWait).faulted = s.faulted := rfl
@[simp] theorem State.endWait_faultCause : (s.endWait).faultCause = s.faultCause := rfl
@[simp] theorem State.endWait_faultAddr : (s.endWait).faultAddr = s.faultAddr := rfl
@[simp] theorem State.endWait_faultLen : (s.endWait).faultLen = s.faultLen := rfl
@[simp] theorem State.endWait_draws : (s.endWait).draws = s.draws := rfl

/-! ### `raise` -/

@[simp] theorem State.raise_v (f : CoreFault) : (s.raise f).v = s.v := rfl
@[simp] theorem State.raise_i (f : CoreFault) : (s.raise f).i = s.i := rfl
@[simp] theorem State.raise_pc (f : CoreFault) : (s.raise f).pc = s.pc := rfl
@[simp] theorem State.raise_dt (f : CoreFault) : (s.raise f).dt = s.dt := rfl
@[simp] theorem State.raise_st (f : CoreFault) : (s.raise f).st = s.st := rfl
@[simp] theorem State.raise_sp (f : CoreFault) : (s.raise f).sp = s.sp := rfl
@[simp] theorem State.raise_stk (f : CoreFault) : (s.raise f).stk = s.stk := rfl
@[simp] theorem State.raise_mem (f : CoreFault) : (s.raise f).mem = s.mem := rfl
@[simp] theorem State.raise_fb (f : CoreFault) : (s.raise f).fb = s.fb := rfl
@[simp] theorem State.raise_key (f : CoreFault) : (s.raise f).key = s.key := rfl
@[simp] theorem State.raise_wait (f : CoreFault) : (s.raise f).wait = s.wait := rfl
@[simp] theorem State.raise_waitReg (f : CoreFault) : (s.raise f).waitReg = s.waitReg := rfl
@[simp] theorem State.raise_faulted (f : CoreFault) : (s.raise f).faulted = true := rfl
@[simp] theorem State.raise_faultCause (f : CoreFault) : (s.raise f).faultCause = f.code := rfl
@[simp] theorem State.raise_faultAddr (f : CoreFault) : (s.raise f).faultAddr = f.recordedAddr := rfl
@[simp] theorem State.raise_faultLen (f : CoreFault) : (s.raise f).faultLen = f.recordedLen := rfl
@[simp] theorem State.raise_draws (f : CoreFault) : (s.raise f).draws = s.draws := rfl

/-! ### `loadRegs` -/

@[simp] theorem State.loadRegs_v (bs : List Byte) : (s.loadRegs bs).v = loadRegsFrom s.v 0 bs := rfl
@[simp] theorem State.loadRegs_i (bs : List Byte) : (s.loadRegs bs).i = s.i := rfl
@[simp] theorem State.loadRegs_pc (bs : List Byte) : (s.loadRegs bs).pc = s.pc := rfl
@[simp] theorem State.loadRegs_dt (bs : List Byte) : (s.loadRegs bs).dt = s.dt := rfl
@[simp] theorem State.loadRegs_st (bs : List Byte) : (s.loadRegs bs).st = s.st := rfl
@[simp] theorem State.loadRegs_sp (bs : List Byte) : (s.loadRegs bs).sp = s.sp := rfl
@[simp] theorem State.loadRegs_stk (bs : List Byte) : (s.loadRegs bs).stk = s.stk := rfl
@[simp] theorem State.loadRegs_mem (bs : List Byte) : (s.loadRegs bs).mem = s.mem := rfl
@[simp] theorem State.loadRegs_fb (bs : List Byte) : (s.loadRegs bs).fb = s.fb := rfl
@[simp] theorem State.loadRegs_key (bs : List Byte) : (s.loadRegs bs).key = s.key := rfl
@[simp] theorem State.loadRegs_wait (bs : List Byte) : (s.loadRegs bs).wait = s.wait := rfl
@[simp] theorem State.loadRegs_waitReg (bs : List Byte) : (s.loadRegs bs).waitReg = s.waitReg := rfl
@[simp] theorem State.loadRegs_faulted (bs : List Byte) : (s.loadRegs bs).faulted = s.faulted := rfl
@[simp] theorem State.loadRegs_faultCause (bs : List Byte) : (s.loadRegs bs).faultCause = s.faultCause := rfl
@[simp] theorem State.loadRegs_faultAddr (bs : List Byte) : (s.loadRegs bs).faultAddr = s.faultAddr := rfl
@[simp] theorem State.loadRegs_faultLen (bs : List Byte) : (s.loadRegs bs).faultLen = s.faultLen := rfl
@[simp] theorem State.loadRegs_draws (bs : List Byte) : (s.loadRegs bs).draws = s.draws := rfl

/-! ### `decayTimers` -/

@[simp] theorem State.decayTimers_v : (s.decayTimers).v = s.v := rfl
@[simp] theorem State.decayTimers_i : (s.decayTimers).i = s.i := rfl
@[simp] theorem State.decayTimers_pc : (s.decayTimers).pc = s.pc := rfl
@[simp] theorem State.decayTimers_dt : (s.decayTimers).dt = decayed s.dt := rfl
@[simp] theorem State.decayTimers_st : (s.decayTimers).st = decayed s.st := rfl
@[simp] theorem State.decayTimers_sp : (s.decayTimers).sp = s.sp := rfl
@[simp] theorem State.decayTimers_stk : (s.decayTimers).stk = s.stk := rfl
@[simp] theorem State.decayTimers_mem : (s.decayTimers).mem = s.mem := rfl
@[simp] theorem State.decayTimers_fb : (s.decayTimers).fb = s.fb := rfl
@[simp] theorem State.decayTimers_key : (s.decayTimers).key = s.key := rfl
@[simp] theorem State.decayTimers_wait : (s.decayTimers).wait = s.wait := rfl
@[simp] theorem State.decayTimers_waitReg : (s.decayTimers).waitReg = s.waitReg := rfl
@[simp] theorem State.decayTimers_faulted : (s.decayTimers).faulted = s.faulted := rfl
@[simp] theorem State.decayTimers_faultCause : (s.decayTimers).faultCause = s.faultCause := rfl
@[simp] theorem State.decayTimers_faultAddr : (s.decayTimers).faultAddr = s.faultAddr := rfl
@[simp] theorem State.decayTimers_faultLen : (s.decayTimers).faultLen = s.faultLen := rfl
@[simp] theorem State.decayTimers_draws : (s.decayTimers).draws = s.draws := rfl

/-! ### `press` -/

@[simp] theorem State.press_v (k : KeyNum) : (s.press k).v = s.v := rfl
@[simp] theorem State.press_i (k : KeyNum) : (s.press k).i = s.i := rfl
@[simp] theorem State.press_pc (k : KeyNum) : (s.press k).pc = s.pc := rfl
@[simp] theorem State.press_dt (k : KeyNum) : (s.press k).dt = s.dt := rfl
@[simp] theorem State.press_st (k : KeyNum) : (s.press k).st = s.st := rfl
@[simp] theorem State.press_sp (k : KeyNum) : (s.press k).sp = s.sp := rfl
@[simp] theorem State.press_stk (k : KeyNum) : (s.press k).stk = s.stk := rfl
@[simp] theorem State.press_mem (k : KeyNum) : (s.press k).mem = s.mem := rfl
@[simp] theorem State.press_fb (k : KeyNum) : (s.press k).fb = s.fb := rfl
@[simp] theorem State.press_key (k : KeyNum) : (s.press k).key = s.key.set k true := rfl
@[simp] theorem State.press_wait (k : KeyNum) : (s.press k).wait = s.wait := rfl
@[simp] theorem State.press_waitReg (k : KeyNum) : (s.press k).waitReg = s.waitReg := rfl
@[simp] theorem State.press_faulted (k : KeyNum) : (s.press k).faulted = s.faulted := rfl
@[simp] theorem State.press_faultCause (k : KeyNum) : (s.press k).faultCause = s.faultCause := rfl
@[simp] theorem State.press_faultAddr (k : KeyNum) : (s.press k).faultAddr = s.faultAddr := rfl
@[simp] theorem State.press_faultLen (k : KeyNum) : (s.press k).faultLen = s.faultLen := rfl
@[simp] theorem State.press_draws (k : KeyNum) : (s.press k).draws = s.draws := rfl

/-! ### `release` -/

@[simp] theorem State.release_v (k : KeyNum) : (s.release k).v = s.v := rfl
@[simp] theorem State.release_i (k : KeyNum) : (s.release k).i = s.i := rfl
@[simp] theorem State.release_pc (k : KeyNum) : (s.release k).pc = s.pc := rfl
@[simp] theorem State.release_dt (k : KeyNum) : (s.release k).dt = s.dt := rfl
@[simp] theorem State.release_st (k : KeyNum) : (s.release k).st = s.st := rfl
@[simp] theorem State.release_sp (k : KeyNum) : (s.release k).sp = s.sp := rfl
@[simp] theorem State.release_stk (k : KeyNum) : (s.release k).stk = s.stk := rfl
@[simp] theorem State.release_mem (k : KeyNum) : (s.release k).mem = s.mem := rfl
@[simp] theorem State.release_fb (k : KeyNum) : (s.release k).fb = s.fb := rfl
@[simp] theorem State.release_key (k : KeyNum) : (s.release k).key = s.key.set k false := rfl
@[simp] theorem State.release_wait (k : KeyNum) : (s.release k).wait = s.wait := rfl
@[simp] theorem State.release_waitReg (k : KeyNum) : (s.release k).waitReg = s.waitReg := rfl
@[simp] theorem State.release_faulted (k : KeyNum) : (s.release k).faulted = s.faulted := rfl
@[simp] theorem State.release_faultCause (k : KeyNum) : (s.release k).faultCause = s.faultCause := rfl
@[simp] theorem State.release_faultAddr (k : KeyNum) : (s.release k).faultAddr = s.faultAddr := rfl
@[simp] theorem State.release_faultLen (k : KeyNum) : (s.release k).faultLen = s.faultLen := rfl
@[simp] theorem State.release_draws (k : KeyNum) : (s.release k).draws = s.draws := rfl

/-! ### `draw` -/

@[simp] theorem State.draw_v : s.draw.2.v = s.v := rfl
@[simp] theorem State.draw_i : s.draw.2.i = s.i := rfl
@[simp] theorem State.draw_pc : s.draw.2.pc = s.pc := rfl
@[simp] theorem State.draw_dt : s.draw.2.dt = s.dt := rfl
@[simp] theorem State.draw_st : s.draw.2.st = s.st := rfl
@[simp] theorem State.draw_sp : s.draw.2.sp = s.sp := rfl
@[simp] theorem State.draw_stk : s.draw.2.stk = s.stk := rfl
@[simp] theorem State.draw_mem : s.draw.2.mem = s.mem := rfl
@[simp] theorem State.draw_fb : s.draw.2.fb = s.fb := rfl
@[simp] theorem State.draw_key : s.draw.2.key = s.key := rfl
@[simp] theorem State.draw_wait : s.draw.2.wait = s.wait := rfl
@[simp] theorem State.draw_waitReg : s.draw.2.waitReg = s.waitReg := rfl
@[simp] theorem State.draw_faulted : s.draw.2.faulted = s.faulted := rfl
@[simp] theorem State.draw_faultCause : s.draw.2.faultCause = s.faultCause := rfl
@[simp] theorem State.draw_faultAddr : s.draw.2.faultAddr = s.faultAddr := rfl
@[simp] theorem State.draw_faultLen : s.draw.2.faultLen = s.faultLen := rfl
@[simp] theorem State.draw_draws : s.draw.2.draws = s.draws + 1 := rfl
@[simp] theorem State.draw_byte : s.draw.1 = Config.randByte s.draws := rfl

end Sys2Proof.Machine
end

