-- ==== Sys2Proof/Laws/Ops.lean ====
section
/-! SUPPORT. What each shared operation over registers, stack, operands and flags can do. -/

namespace Sys2Proof.Machine

/-! ### Registers -/

@[simp] theorem State.reg_setReg_same (s : State) (r : RegNum) (b : Byte) : (s.setReg r b).reg r = b := by
  simp [State.reg, State.setReg]

theorem State.reg_setReg_other (s : State) (b : Byte) {r r' : RegNum} (h : r' ≠ r) :
    (s.setReg r b).reg r' = s.reg r' := by
  have : r.val ≠ r'.val := fun e => h (Fin.ext e.symm)
  simp [State.reg, State.setReg, this]

theorem State.reg_setReg (s : State) (b : Byte) (r r' : RegNum) :
    (s.setReg r b).reg r' = if r' = r then b else s.reg r' := by
  split
  · subst r'; simp
  · rename_i h; exact State.reg_setReg_other s b h

/-- Two states with the same register file read the same. -/
theorem State.reg_congr {s t : State} (h : t.v = s.v) (r : RegNum) : t.reg r = s.reg r := by
  simp [State.reg, h]

/-- The two writes of a flag-producing instruction: `V[x]` holds the result, whatever `x` is; `VF` holds the flag
unless `x` is `F` (42_alu.md R100). -/
theorem State.reg_setFlagThenReg (s : State) (flag : Bool) (x : RegNum) (result : Byte) (r : RegNum) :
    (s.setFlagThenReg flag x result).reg r =
      if r = x then result else if r = 15 then flagByte flag else s.reg r := by
  simp [State.setFlagThenReg, State.reg_setReg, vf]

/-! ### The call stack -/

/-- A push below the capacity succeeds (10_state.md R18). -/
theorem State.push_ok (s : State) (w : Word) (h : s.sp.val < 16) :
    s.push w = .ok { s with stk := s.stk.set s.sp.val w h, sp := ⟨s.sp.val + 1, Nat.succ_lt_succ h⟩ } := by
  simp [State.push, h]

/-- A push at the capacity overflows (10_state.md R18). -/
theorem State.push_full (s : State) (w : Word) (h : s.sp.val = 16) : s.push w = .error .stackOverflow := by
  simp [State.push, h]

/-- A pop of a stack that is not empty answers the newest entry (10_state.md R18). -/
theorem State.pop_ok (s : State) (h : 0 < s.sp.val) :
    s.pop = .ok (s.stk[s.sp.val - 1]'(by have := s.sp.isLt; omega),
      { s with sp := ⟨s.sp.val - 1, by have := s.sp.isLt; omega⟩ }) := by
  simp [State.pop, State.top, h]

/-- A pop of an empty stack underflows (10_state.md R18). -/
theorem State.pop_empty (s : State) (h : s.sp.val = 0) : s.pop = .error .stackUnderflow := by
  simp [State.pop, State.top, h]

/-! ### The end of a checked instruction -/

@[simp] theorem State.settle_ok (s t : State) : s.settle (.ok t) = .next t := rfl

@[simp] theorem State.settle_error (s : State) (f : CoreFault) : s.settle (.error f) = .next (s.raise f) := rfl

/-- A checked instruction answers its new state or the fault raised, and nothing else. -/
theorem State.settle_cases (s : State) (r : Except CoreFault State) :
    (∃ t, r = .ok t ∧ s.settle r = .next t) ∨ (∃ f, r = .error f ∧ s.settle r = .next (s.raise f)) := by
  cases r with
  | ok t => exact .inl ⟨t, rfl, rfl⟩
  | error f => exact .inr ⟨f, rfl, rfl⟩

/-! ### Register blocks -/

@[simp] theorem State.length_regBlock (s : State) (x : RegNum) : (s.regBlock x).length = x.val + 1 := by
  have := x.isLt
  simp [State.regBlock, blockLen]

theorem State.getElem_regBlock (s : State) (x : RegNum) (j : Nat) (h : j < (s.regBlock x).length) :
    (s.regBlock x)[j] = s.reg ⟨j, by have := x.isLt; rw [State.length_regBlock] at h; omega⟩ := by
  simp [State.regBlock, State.reg]

theorem getElem_loadRegsFrom (bs : List Byte) : ∀ (v : Vector Byte 16) (j : Nat) (r : Nat) (hr : r < 16),
    (loadRegsFrom v j bs)[r] = if h : j ≤ r ∧ r - j < bs.length then bs[r - j]'h.2 else v[r] := by
  induction bs with
  | nil => intro v j r hr; simp [loadRegsFrom]
  | cons b bs ih =>
    intro v j r hr
    rw [loadRegsFrom, ih]
    by_cases hx : r = j
    · subst hx
      have : ¬ r + 1 ≤ r := by omega
      simp [this]
    · by_cases hlt : j + 1 ≤ r ∧ r - (j + 1) < bs.length
      · obtain ⟨n, rfl⟩ : ∃ n, r = j + 1 + n := ⟨r - (j + 1), by omega⟩
        have e1 : j + 1 + n - (j + 1) = n := by omega
        have e2 : j + 1 + n - j = n + 1 := by omega
        have h2 : j ≤ j + 1 + n ∧ j + 1 + n - j < (b :: bs).length := by simp; omega
        simp only [e1, e2] at hlt h2 ⊢
        simp [hlt, h2]
      · have h2 : ¬ (j ≤ r ∧ r - j < (b :: bs).length) := by simp; omega
        rw [dif_neg hlt, dif_neg h2, Vector.getElem_setIfInBounds_ne _ (by omega)]

/-- After a block load, register `r` holds byte `r` of the block, and the registers past the block are as before. -/
theorem State.reg_loadRegs (s : State) (bs : List Byte) (r : RegNum) :
    (s.loadRegs bs).reg r = if h : r.val < bs.length then bs[r.val] else s.reg r := by
  have := getElem_loadRegsFrom bs s.v 0 r.val r.isLt
  simpa [State.reg, State.loadRegs] using this

@[simp] theorem length_bcdDigits (vx : Byte) : (bcdDigits vx).length = 3 := rfl

/-! ### Immediates -/

@[simp] theorem toNat_zextAddr (nnn : Addr12) : (zextAddr nnn).toNat = nnn.toNat := by
  have := nnn.isLt
  simp [zextAddr]
  omega

@[simp] theorem toNat_zextByte (b : Byte) : (zextByte b).toNat = b.toNat := by
  have := b.isLt
  simp [zextByte]
  omega

/-- The indexed target never wraps: it is at most 0x10FE (41_flow.md R98). -/
theorem toNat_indexedTarget (nnn : Addr12) (v0 : Byte) : (indexedTarget nnn v0).toNat = nnn.toNat + v0.toNat := by
  have := nnn.isLt
  have := v0.isLt
  simp [indexedTarget, BitVec.toNat_add]
  omega

theorem toNat_glyphAddr (vx : Byte) : (glyphAddr vx).toNat = 0x50 + 5 * vx.toNat := by
  have := vx.isLt
  simp [glyphAddr, Config.fontBase, Config.glyphSize]
  omega

theorem toNat_keyIndex (vx : Byte) : (keyIndex vx).val = vx.toNat % 16 := by
  simp [keyIndex, nibbleIndex, BitVec.extractLsb'_toNat]

/-! ### Flags -/

theorem toNat_flagByte (b : Bool) : (flagByte b).toNat = b.toNat := by cases b <;> rfl

theorem toNat_sum9 (vx vy : Byte) : (sum9 vx vy).toNat = vx.toNat + vy.toNat := by
  have := vx.isLt
  have := vy.isLt
  simp [sum9, BitVec.toNat_add]
  omega

theorem carryOut_eq (vx vy : Byte) : carryOut vx vy = decide (255 < vx.toNat + vy.toNat) := by
  have hs := toNat_sum9 vx vy
  have := vx.isLt
  have := vy.isLt
  rw [carryOut, BitVec.getLsbD, hs, Nat.testBit_eq_decide_div_mod_eq]
  congr 1
  apply propext
  omega

theorem toNat_sumLow (vx vy : Byte) : (sumLow vx vy).toNat = (vx.toNat + vy.toNat) % 256 := by
  simp [sumLow, toNat_sum9]

/-! ### The key latch -/

/-- The least key: a pressed key with every lower key released (45_timers_input.md R143). -/
theorem State.leastKey_some (s : State) (k : KeyNum) (h : s.leastKey = some k) :
    s.keyDown k = true ∧ ∀ j : KeyNum, j < k → s.keyDown j = false := by
  unfold State.leastKey at h
  obtain ⟨hk, pre, suf, he, hpre⟩ := List.find?_eq_some_iff_append.1 h
  refine ⟨hk, fun j hj => ?_⟩
  have hsorted : keyNums.Pairwise (· < ·) := by decide
  have hmem : j ∈ keyNums := (by decide : ∀ k : KeyNum, k ∈ keyNums) j
  rw [he] at hsorted hmem
  rw [List.pairwise_append] at hsorted
  rcases List.mem_append.1 hmem with hm | hm
  · simpa using hpre j hm
  · exfalso
    rcases List.mem_cons.1 hm with rfl | hm
    · exact absurd hj (lt_irrefl _)
    · have := (List.pairwise_cons.1 hsorted.2.1).1 j hm
      exact absurd (lt_trans hj this) (lt_irrefl _)

/-- No least key: no key is pressed. -/
theorem State.leastKey_none (s : State) : s.leastKey = none ↔ ∀ k : KeyNum, s.keyDown k = false := by
  have hmem : ∀ k : KeyNum, k ∈ keyNums := by decide
  simp [State.leastKey, hmem]

/-! ### The timers -/

theorem toNat_decayed (t : Byte) : (decayed t).toNat = t.toNat - 1 := by
  unfold decayed
  split
  · rename_i h; subst h; rfl
  · rename_i h
    have : t.toNat ≠ 0 := fun e => h (BitVec.eq_of_toNat_eq e)
    have := t.isLt
    rw [BitVec.toNat_sub]
    simp
    omega

end Sys2Proof.Machine
end

