-- ==== Sys2Proof/Laws/PerInstr.lean ====
section
/-! SUPPORT. Per instruction: the canonical encoding lies in the instruction's own row of the opcode table
(spec 30_encoding.md R56, R60). -/

namespace Sys2Proof.Laws.OpcodeRow

/-- The encoded word has the tested bits of the instruction's row. -/
def Statement (i : Instr) : Prop := (opcodeRows[i.row]?).any (rowHits (encode i)) = true

theorem formatA_family (t : Nibble) (nnn : Addr12) : formatA t nnn &&& 0xF000#16 = t.setWidth 16 <<< 12 := by
  ext i hi
  interval_cases i <;> simp [formatA]

theorem formatXK_family (t : Nibble) (x : RegNum) (kk : Byte) :
    formatXK t x kk &&& 0xF000#16 = t.setWidth 16 <<< 12 := by
  ext i hi
  interval_cases i <;> simp [formatXK]

theorem formatXK_nibble (t : Nibble) (x : RegNum) (kk : Byte) :
    formatXK t x kk &&& 0xF00F#16 = t.setWidth 16 <<< 12 ||| (kk.extractLsb' 0 4).setWidth 16 := by
  ext i hi
  interval_cases i <;> simp [formatXK]

theorem formatXK_byte (t : Nibble) (x : RegNum) (kk : Byte) :
    formatXK t x kk &&& 0xF0FF#16 = t.setWidth 16 <<< 12 ||| kk.setWidth 16 := by
  ext i hi
  interval_cases i <;> simp [formatXK]

theorem formatXYN_family (t : Nibble) (x y : RegNum) (n : Nibble) :
    formatXYN t x y n &&& 0xF000#16 = t.setWidth 16 <<< 12 := by
  ext i hi
  interval_cases i <;> simp [formatXYN]

theorem formatXYN_nibble (t : Nibble) (x y : RegNum) (n : Nibble) :
    formatXYN t x y n &&& 0xF00F#16 = t.setWidth 16 <<< 12 ||| n.setWidth 16 := by
  ext i hi
  interval_cases i <;> simp [formatXYN]

/-- The instruction's row, and the word's tested bits in it. -/
theorem of_row {i : Instr} (r : OpcodeRow) (hr : opcodeRows[i.row]? = some r) (h : encode i &&& r.mask = r.pattern) :
    Statement i := by
  simp [Statement, hr, rowHits, h]

theorem cls : Statement .cls := of_row ⟨0x0000, 0xF00F⟩ rfl (by decide)

theorem ret : Statement .ret := of_row ⟨0x000E, 0xF00F⟩ rfl (by decide)

theorem sys (nnn : Addr12) : Statement (.sys nnn) := of_row ⟨0x0000, 0xF000⟩ rfl ((formatA_family _ _).trans (by decide))

theorem jp (nnn : Addr12) : Statement (.jp nnn) := of_row ⟨0x1000, 0xF000⟩ rfl ((formatA_family _ _).trans (by decide))

theorem call (nnn : Addr12) : Statement (.call nnn) := of_row ⟨0x2000, 0xF000⟩ rfl ((formatA_family _ _).trans (by decide))

theorem seImm (x : RegNum) (kk : Byte) : Statement (.seImm x kk) := of_row ⟨0x3000, 0xF000⟩ rfl ((formatXK_family _ _ _).trans (by decide))

theorem sneImm (x : RegNum) (kk : Byte) : Statement (.sneImm x kk) := of_row ⟨0x4000, 0xF000⟩ rfl ((formatXK_family _ _ _).trans (by decide))

theorem seReg (x y : RegNum) : Statement (.seReg x y) := of_row ⟨0x5000, 0xF000⟩ rfl ((formatXYN_family _ _ _ _).trans (by decide))

theorem ldImm (x : RegNum) (kk : Byte) : Statement (.ldImm x kk) := of_row ⟨0x6000, 0xF000⟩ rfl ((formatXK_family _ _ _).trans (by decide))

theorem addImm (x : RegNum) (kk : Byte) : Statement (.addImm x kk) := of_row ⟨0x7000, 0xF000⟩ rfl ((formatXK_family _ _ _).trans (by decide))

theorem ldReg (x y : RegNum) : Statement (.ldReg x y) := of_row ⟨0x8000, 0xF00F⟩ rfl ((formatXYN_nibble _ _ _ _).trans (by decide))

theorem orReg (x y : RegNum) : Statement (.orReg x y) := of_row ⟨0x8001, 0xF00F⟩ rfl ((formatXYN_nibble _ _ _ _).trans (by decide))

theorem andReg (x y : RegNum) : Statement (.andReg x y) := of_row ⟨0x8002, 0xF00F⟩ rfl ((formatXYN_nibble _ _ _ _).trans (by decide))

theorem xorReg (x y : RegNum) : Statement (.xorReg x y) := of_row ⟨0x8003, 0xF00F⟩ rfl ((formatXYN_nibble _ _ _ _).trans (by decide))

theorem addReg (x y : RegNum) : Statement (.addReg x y) := of_row ⟨0x8004, 0xF00F⟩ rfl ((formatXYN_nibble _ _ _ _).trans (by decide))

theorem subReg (x y : RegNum) : Statement (.subReg x y) := of_row ⟨0x8005, 0xF00F⟩ rfl ((formatXYN_nibble _ _ _ _).trans (by decide))

theorem shr (x y : RegNum) : Statement (.shr x y) := of_row ⟨0x8006, 0xF00F⟩ rfl ((formatXYN_nibble _ _ _ _).trans (by decide))

theorem subnReg (x y : RegNum) : Statement (.subnReg x y) := of_row ⟨0x8007, 0xF00F⟩ rfl ((formatXYN_nibble _ _ _ _).trans (by decide))

theorem shl (x y : RegNum) : Statement (.shl x y) := of_row ⟨0x800E, 0xF00F⟩ rfl ((formatXYN_nibble _ _ _ _).trans (by decide))

theorem sneReg (x y : RegNum) : Statement (.sneReg x y) := of_row ⟨0x9000, 0xF000⟩ rfl ((formatXYN_family _ _ _ _).trans (by decide))

theorem ldI (nnn : Addr12) : Statement (.ldI nnn) := of_row ⟨0xA000, 0xF000⟩ rfl ((formatA_family _ _).trans (by decide))

theorem jpV0 (nnn : Addr12) : Statement (.jpV0 nnn) := of_row ⟨0xB000, 0xF000⟩ rfl ((formatA_family _ _).trans (by decide))

theorem rnd (x : RegNum) (kk : Byte) : Statement (.rnd x kk) := of_row ⟨0xC000, 0xF000⟩ rfl ((formatXK_family _ _ _).trans (by decide))

theorem drw (x y : RegNum) (n : Nibble) : Statement (.drw x y n) := of_row ⟨0xD000, 0xF000⟩ rfl ((formatXYN_family _ _ _ _).trans (by decide))

theorem skp (x : RegNum) : Statement (.skp x) := of_row ⟨0xE00E, 0xF00F⟩ rfl ((formatXK_nibble _ _ _).trans (by decide))

theorem sknp (x : RegNum) : Statement (.sknp x) := of_row ⟨0xE001, 0xF00F⟩ rfl ((formatXK_nibble _ _ _).trans (by decide))

theorem ldVxDT (x : RegNum) : Statement (.ldVxDT x) := of_row ⟨0xF007, 0xF0FF⟩ rfl ((formatXK_byte _ _ _).trans (by decide))

theorem ldVxK (x : RegNum) : Statement (.ldVxK x) := of_row ⟨0xF00A, 0xF0FF⟩ rfl ((formatXK_byte _ _ _).trans (by decide))

theorem ldDTVx (x : RegNum) : Statement (.ldDTVx x) := of_row ⟨0xF015, 0xF0FF⟩ rfl ((formatXK_byte _ _ _).trans (by decide))

theorem ldSTVx (x : RegNum) : Statement (.ldSTVx x) := of_row ⟨0xF018, 0xF0FF⟩ rfl ((formatXK_byte _ _ _).trans (by decide))

theorem addIVx (x : RegNum) : Statement (.addIVx x) := of_row ⟨0xF01E, 0xF0FF⟩ rfl ((formatXK_byte _ _ _).trans (by decide))

theorem ldFVx (x : RegNum) : Statement (.ldFVx x) := of_row ⟨0xF029, 0xF0FF⟩ rfl ((formatXK_byte _ _ _).trans (by decide))

theorem ldBVx (x : RegNum) : Statement (.ldBVx x) := of_row ⟨0xF033, 0xF0FF⟩ rfl ((formatXK_byte _ _ _).trans (by decide))

theorem ldMemVx (x : RegNum) : Statement (.ldMemVx x) := of_row ⟨0xF055, 0xF0FF⟩ rfl ((formatXK_byte _ _ _).trans (by decide))

theorem ldVxMem (x : RegNum) : Statement (.ldVxMem x) := of_row ⟨0xF065, 0xF0FF⟩ rfl ((formatXK_byte _ _ _).trans (by decide))

theorem nop8 (rest : Addr12) : Statement (.nop8 rest) := of_row ⟨0x8000, 0xF000⟩ rfl ((formatA_family _ _).trans (by decide))

theorem nopE (rest : Addr12) : Statement (.nopE rest) := of_row ⟨0xE000, 0xF000⟩ rfl ((formatA_family _ _).trans (by decide))

theorem nopF (rest : Addr12) : Statement (.nopF rest) := of_row ⟨0xF000, 0xF000⟩ rfl ((formatA_family _ _).trans (by decide))

end Sys2Proof.Laws.OpcodeRow
end

