-- ==== Sys2Proof/Laws/Ports.lean ====
section
/-! SUPPORT. What each move of the outside agents does, and moves one after another (spec 10_state.md R24 to R26). -/

namespace Sys2Proof.Machine

variable (e : Env)

@[simp] theorem Env.move_reset : e.move .reset = some { core := e.core.resetPort, started := false } := rfl

@[simp] theorem Env.move_press (k : KeyNum) : e.move (.press k) = some { e with core := e.core.press k } := rfl

@[simp] theorem Env.move_release (k : KeyNum) : e.move (.release k) = some { e with core := e.core.release k } := rfl

/-- A load before the first step, at 0x200 or above, writes its byte. -/
theorem Env.move_load {addr : Addr12} (data : Byte) (hs : e.started = false) (ha : Config.loadBase ≤ addr.toNat) :
    e.move (.load addr data) = some { e with core := e.core.setMem (e.core.mem.put addr.toNat data) } := by
  simp [Env.move, hs, ha]

/-- Any other load is no move. -/
theorem Env.move_load_none {addr : Addr12} (data : Byte) (h : e.started = true ∨ addr.toNat < Config.loadBase) :
    e.move (.load addr data) = none := by
  have : ¬ (e.started = false ∧ Config.loadBase ≤ addr.toNat) := by
    rintro ⟨hs, ha⟩
    rcases h with h | h
    · simp [hs] at h
    · omega
  simp [Env.move, this]

@[simp] theorem Env.moves_nil : e.moves [] = some e := rfl

theorem Env.moves_cons {e' : Env} {m : Move} (ms : List Move) (h : e.move m = some e') :
    e.moves (m :: ms) = e'.moves ms := by
  simp [Env.moves, h]

@[simp] theorem State.resetPort_draws (s : State) : s.resetPort.draws = s.draws := rfl

/-- Reset leaves the reset state, whatever the state before, but for the count of draws. -/
theorem State.resetPort_eq (s : State) : { s.resetPort with draws := 0 } = State.reset := rfl

end Sys2Proof.Machine
end

