-- ==== Sys2Proof/Laws/Safety.lean ====
section
/-! SUPPORT. What each part of the state shows, the frames of the shared operations, and what a cycle can do. -/

namespace Sys2Proof.Machine

/-! ### The parts -/

variable (s t u : State)

@[simp] theorem State.view_v (r : RegNum) : s.view (.v r) = (s.reg r).toNat := rfl
@[simp] theorem State.view_i : s.view .i = s.i.toNat := rfl
@[simp] theorem State.view_pc : s.view .pc = s.pc.toNat := rfl
@[simp] theorem State.view_dt : s.view .dt = s.dt.toNat := rfl
@[simp] theorem State.view_st : s.view .st = s.st.toNat := rfl
@[simp] theorem State.view_sp : s.view .sp = s.sp.val := rfl
@[simp] theorem State.view_stk (k : Fin 16) : s.view (.stk k) = (s.stk[k]).toNat := rfl
@[simp] theorem State.view_mem (a : Nat) : s.view (.mem a) = (s.mem.byteAt a).toNat := rfl
@[simp] theorem State.view_pixel (r : Fin 32) (c : Fin 64) : s.view (.pixel r c) = (s.fb.pixel r c).toNat := rfl
@[simp] theorem State.view_key (k : KeyNum) : s.view (.key k) = (s.keyDown k).toNat := rfl
@[simp] theorem State.view_wait : s.view .wait = s.wait.toNat := rfl
@[simp] theorem State.view_waitReg : s.view .waitReg = s.waitReg.val := rfl
@[simp] theorem State.view_faulted : s.view .faulted = s.faulted.toNat := rfl
@[simp] theorem State.view_faultCause : s.view .faultCause = s.faultCause.toNat := rfl
@[simp] theorem State.view_faultAddr : s.view .faultAddr = s.faultAddr.toNat := rfl
@[simp] theorem State.view_faultLen : s.view .faultLen = s.faultLen.toNat := rfl
@[simp] theorem State.view_draws : s.view .draws = s.draws := rfl

/-! ### Frames -/

variable {s t u}

theorem KeepsAllBut.refl (named : Part → Prop) : KeepsAllBut named s s := fun _ _ => rfl

theorem KeepsAllBut.trans {named : Part → Prop} (h : KeepsAllBut named s t) (h' : KeepsAllBut named t u) :
    KeepsAllBut named s u := fun p hp => (h' p hp).trans (h p hp)

theorem KeepsAllBut.weaken {named named' : Part → Prop} (h : KeepsAllBut named s t) (hsub : ∀ p, named p → named' p) :
    KeepsAllBut named' s t := fun p hp => h p fun hn => hp (hsub p hn)

variable (s)

theorem State.setReg_keeps (x : RegNum) (b : Byte) : KeepsAllBut (fun p => p = .v x) s (s.setReg x b) := by
  intro p hp
  cases p with
  | v r =>
    have : r ≠ x := fun e => hp (e ▸ rfl)
    simp [State.reg_setReg_other s b this]
  | _ => rfl

theorem State.setFlagThenReg_keeps (flag : Bool) (x : RegNum) (b : Byte) :
    KeepsAllBut (fun p => p = .v x ∨ p = .v 15) s (s.setFlagThenReg flag x b) :=
  ((State.setReg_keeps s 15 _).weaken fun _ h => .inr h).trans
    ((State.setReg_keeps _ x b).weaken fun _ h => .inl h)

theorem State.setI_keeps (w : Word) : KeepsAllBut (fun p => p = .i) s (s.setI w) := by
  intro p hp
  cases p with
  | i => exact absurd rfl hp
  | _ => rfl

theorem State.setPc_keeps (w : Word) : KeepsAllBut (fun p => p = .pc) s (s.setPc w) := by
  intro p hp
  cases p with
  | pc => exact absurd rfl hp
  | _ => rfl

theorem State.skipIf_keeps (c : Bool) : KeepsAllBut (fun p => p = .pc) s (s.skipIf c) := by
  cases c with
  | false => exact KeepsAllBut.refl _
  | true => exact State.setPc_keeps s _

theorem State.setDt_keeps (b : Byte) : KeepsAllBut (fun p => p = .dt) s (s.setDt b) := by
  intro p hp
  cases p with
  | dt => exact absurd rfl hp
  | _ => rfl

theorem State.setSt_keeps (b : Byte) : KeepsAllBut (fun p => p = .st) s (s.setSt b) := by
  intro p hp
  cases p with
  | st => exact absurd rfl hp
  | _ => rfl

theorem State.startWait_keeps (x : RegNum) : KeepsAllBut (fun p => p = .wait ∨ p = .waitReg) s (s.startWait x) := by
  intro p hp
  cases p with
  | wait => exact absurd (.inl rfl) hp
  | waitReg => exact absurd (.inr rfl) hp
  | _ => rfl

theorem State.endWait_keeps : KeepsAllBut (fun p => p = .wait ∨ p = .waitReg) s s.endWait := by
  intro p hp
  cases p with
  | wait => exact absurd (.inl rfl) hp
  | waitReg => exact absurd (.inr rfl) hp
  | _ => rfl

theorem State.setFb_keeps (f : Framebuffer) : KeepsAllBut Part.ofScreen s (s.setFb f) := by
  intro p hp
  cases p with
  | pixel r c => exact absurd trivial hp
  | _ => rfl

theorem State.draw_keeps : KeepsAllBut (fun p => p = .draws) s s.draw.2 := by
  intro p hp
  cases p with
  | draws => exact absurd rfl hp
  | _ => rfl

/-- A block put at a window leaves everything outside the window alone. -/
theorem State.putBytes_keeps (addr : Word) (bs : List Byte) :
    KeepsAllBut (Part.inWindow addr bs.length) s (s.setMem (s.mem.putBytes addr.toNat bs)) := by
  intro p hp
  cases p with
  | mem a =>
    have : a < addr.toNat ∨ addr.toNat + bs.length ≤ a := by
      simp only [Part.inWindow] at hp
      omega
    simp [Memory.byteAt_putBytes_outside _ _ _ _ this]
  | _ => rfl

/-- A block load writes the registers below the block's length, and nothing else. -/
theorem State.loadRegs_keeps (bs : List Byte) :
    KeepsAllBut (fun p => ∃ r : RegNum, p = .v r ∧ r.val < bs.length) s (s.loadRegs bs) := by
  intro p hp
  cases p with
  | v r =>
    have : ¬ r.val < bs.length := fun h => hp ⟨r, rfl, h⟩
    simp [State.reg_loadRegs, this]
  | _ => rfl

/-- Raising a fault writes the record and nothing else (60_exceptions.md R165). -/
theorem State.raise_raised (f : CoreFault) :
    Raised f.code.toNat f.recordedAddr.toNat f.recordedLen.toNat s (s.raise f) where
  faulted := rfl
  cause := rfl
  addr := rfl
  len := rfl
  frame := by
    intro p hp
    cases p with
    | faulted => exact absurd trivial hp
    | faultCause => exact absurd trivial hp
    | faultAddr => exact absurd trivial hp
    | faultLen => exact absurd trivial hp
    | _ => rfl

/-- An out-of-range window of at most 31 bytes is recorded as it is. -/
theorem State.raise_outOfRange (addr : Word) {len : Nat} (h : len < 32) :
    Raised 1 addr.toNat len s (s.raise (.outOfRange addr len)) := by
  have := State.raise_raised s (.outOfRange addr len)
  have e : (BitVec.ofNat 5 len).toNat = len := by simp; omega
  simpa [CoreFault.code, CoreFault.recordedAddr, CoreFault.recordedLen, e] using this

/-! ### What a cycle can do -/

theorem step_faulted (hf : s.faulted = true) : step s = .next s := by
  simp [step, cycle, hf]

theorem step_wait (hf : s.faulted = false) (hw : s.wait = true) : step s = .next s.retryWait.decayTimers := by
  simp [step, cycle, hf, hw]

theorem step_fetch_fault (hf : s.faulted = false) (hw : s.wait = false) (hpc : 4096 < s.pc.toNat + 2) :
    step s = .next (s.raise (.outOfRange s.pc 2)) := by
  simp [step, cycle, hf, hw, State.fetch, Memory.readWord_error s.mem hpc]

theorem step_dispatch (hf : s.faulted = false) (hw : s.wait = false) (hpc : s.pc.toNat + 2 ≤ 4096) :
    step s = finishCycle
      (exec (decodeWord (beWord (s.mem.byteAt s.pc.toNat) (s.mem.byteAt (s.pc.toNat + 1)))) s.stepPc) := by
  simp [step, cycle, hf, hw, State.fetch, Memory.readWord_ok s.mem hpc]

/-- A retry that finds a key: the register, the end of the wait, and the key is the least one (40_cycle.md R78). -/
theorem State.retryWait_cases :
    (∃ k, s.leastKey = some k ∧ s.retryWait = (s.setReg s.waitReg (keyByteOf k)).endWait) ∨
      (s.leastKey = none ∧ s.retryWait = s) := by
  unfold State.retryWait
  cases h : s.leastKey with
  | some k => exact .inl ⟨k, rfl, rfl⟩
  | none => exact .inr ⟨rfl, rfl⟩

end Sys2Proof.Machine
end

