-- ==== Sys2Proof/Tests/Slice0.lean ====
section
/-! SUPPORT. The model's own tests: ill-formed terms refused, words decoded as the spec's encodings say, one cycle of
each instruction on the spec's vectors (95_test_vectors.md, ids in the names), and a witness for the hypotheses of
each obligation that has any. Every expected value is the spec's. -/

namespace Sys2Proof.Tests

open Sys2Proof Sys2Proof.Machine

-- one theorem after another: a hundred kernel evaluations at once need more threads than the check's limits give
set_option Elab.async false

/-! ### Helpers -/

/-- The next state, if there is one. -/
def nextOf (r : Host.Outcome State Fault Refusal) : Option State :=
  match r with
  | .next t => some t
  | .fault _ => none
  | .refused _ => none

/-- The state after one cycle. -/
def after (s : State) : State := (nextOf (step s)).getD s

/-- The state after one dispatch step. -/
def ran (i : Instr) (s : State) : State := (nextOf (exec i s)).getD s

theorem next_getD {r : Host.Outcome State Fault Refusal} {s : State} (h : (nextOf r).isSome = true) :
    r = .next ((nextOf r).getD s) := by
  cases r <;> simp_all [nextOf]

theorem step_after {s : State} (h : (nextOf (step s)).isSome = true) : step s = .next (after s) := next_getD h

theorem exec_ran {i : Instr} {s : State} (h : (nextOf (exec i s)).isSome = true) : exec i s = .next (ran i s) :=
  next_getD h

/-- The parts hold what the list says. -/
def shows (s : State) (parts : List (Part × Nat)) : Bool := parts.all fun p => s.view p.1 == p.2

/-- Registers set. -/
def withV (s : State) (rs : List (RegNum × Byte)) : State := rs.foldl (fun s r => s.setReg r.1 r.2) s

/-- Bytes set from an address on. -/
def withBytes (s : State) (a : Nat) (bs : List Byte) : State := s.setMem (s.mem.putBytes a bs)

/-- Pixels turned on, each as row and column. -/
def withPixels (s : State) (ps : List (Fin 32 × Fin 64)) : State :=
  s.setFb (ps.foldl (fun f p => f.toggle p.1 p.2) s.fb)

/-- One cycle on the opcode `w` stored where the state fetches. -/
def cycleOn (s : State) (w : Nat) : State := after (s.withFetchWord 16 w)

/-- How many pixels are on. -/
def lit (s : State) : Nat := (s.fb.toList.map fun row => row.toList.count true).sum

/-! ### Ill-formed terms: one for each check of `Instr.wellFormed` -/

theorem test_wellFormed_refuses_sys : ¬ (Instr.sys 0x0EE#12).WellFormed := by decide
theorem test_wellFormed_refuses_nop8 : ¬ (Instr.nop8 0x124#12).WellFormed := by decide
theorem test_wellFormed_refuses_nopE : ¬ (Instr.nopE 0x1A1#12).WellFormed := by decide
theorem test_wellFormed_refuses_nopF : ¬ (Instr.nopF 0x165#12).WellFormed := by decide
theorem test_wellFormed_admits_unmapped :
    (Instr.sys 0x123#12).WellFormed ∧ (Instr.nop8 0x128#12).WellFormed ∧ (Instr.nopE 0x19F#12).WellFormed ∧
      (Instr.nopF 0x175#12).WellFormed := by decide

/-! ### Decoding: words written out from 30_encoding.md R52, R56 and R57, and vectors N1 to N13 -/

theorem test_decode_cls : decodeWord 0b0000000011100000#16 = .cls ∧ decodeWord 0x0000#16 = .cls ∧
    decodeWord 0x0AB0#16 = .cls := by decide
theorem test_decode_ret : decodeWord 0b0000000011101110#16 = .ret ∧ decodeWord 0x012E#16 = .ret := by decide
theorem test_decode_sys : decodeWord 0b0000000000000001#16 = .sys 0x001 ∧ decodeWord 0x0FFF#16 = .sys 0xFFF := by decide
theorem test_decode_jp : decodeWord 0b0001101010111100#16 = .jp 0xABC := by decide
theorem test_decode_call : decodeWord 0b0010101010111100#16 = .call 0xABC := by decide
theorem test_decode_seImm : decodeWord 0b0011101001000010#16 = .seImm 10 0x42 := by decide
theorem test_decode_sneImm : decodeWord 0b0100101001000010#16 = .sneImm 10 0x42 := by decide
theorem test_decode_seReg : decodeWord 0b0101000100100000#16 = .seReg 1 2 ∧ decodeWord 0x5121#16 = .seReg 1 2 := by decide
theorem test_decode_ldImm : decodeWord 0b0110101001111111#16 = .ldImm 10 0x7F := by decide
theorem test_decode_addImm : decodeWord 0b0111101011111111#16 = .addImm 10 0xFF := by decide
theorem test_decode_ldReg : decodeWord 0b1000101010110000#16 = .ldReg 10 11 := by decide
theorem test_decode_orReg : decodeWord 0b1000101010110001#16 = .orReg 10 11 := by decide
theorem test_decode_andReg : decodeWord 0b1000101010110010#16 = .andReg 10 11 := by decide
theorem test_decode_xorReg : decodeWord 0b1000101010110011#16 = .xorReg 10 11 := by decide
theorem test_decode_addReg : decodeWord 0b1000101010110100#16 = .addReg 10 11 := by decide
theorem test_decode_subReg : decodeWord 0b1000101010110101#16 = .subReg 10 11 := by decide
theorem test_decode_shr : decodeWord 0b1000101010110110#16 = .shr 10 11 := by decide
theorem test_decode_subnReg : decodeWord 0b1000101010110111#16 = .subnReg 10 11 := by decide
theorem test_decode_shl : decodeWord 0b1000101010111110#16 = .shl 10 11 := by decide
theorem test_decode_sneReg : decodeWord 0b1001000100100000#16 = .sneReg 1 2 ∧ decodeWord 0x912F#16 = .sneReg 1 2 := by
  decide
theorem test_decode_ldI : decodeWord 0b1010111111111111#16 = .ldI 0xFFF := by decide
theorem test_decode_jpV0 : decodeWord 0b1011001100000000#16 = .jpV0 0x300 := by decide
theorem test_decode_rnd : decodeWord 0b1100101000001111#16 = .rnd 10 0x0F := by decide
theorem test_decode_drw : decodeWord 0b1101000100100101#16 = .drw 1 2 5 ∧ decodeWord 0xD120#16 = .drw 1 2 0 := by decide
theorem test_decode_skp : decodeWord 0b1110000110011110#16 = .skp 1 ∧ decodeWord 0xE10E#16 = .skp 1 := by decide
theorem test_decode_sknp : decodeWord 0b1110000110100001#16 = .sknp 1 ∧ decodeWord 0xE101#16 = .sknp 1 ∧
    decodeWord 0xE1F1#16 = .sknp 1 := by decide
theorem test_decode_ldVxDT : decodeWord 0b1111000100000111#16 = .ldVxDT 1 := by decide
theorem test_decode_ldVxK : decodeWord 0b1111000100001010#16 = .ldVxK 1 := by decide
theorem test_decode_ldDTVx : decodeWord 0b1111000100010101#16 = .ldDTVx 1 := by decide
theorem test_decode_ldSTVx : decodeWord 0b1111000100011000#16 = .ldSTVx 1 := by decide
theorem test_decode_addIVx : decodeWord 0b1111000100011110#16 = .addIVx 1 := by decide
theorem test_decode_ldFVx : decodeWord 0b1111000100101001#16 = .ldFVx 1 := by decide
theorem test_decode_ldBVx : decodeWord 0b1111000100110011#16 = .ldBVx 1 := by decide
theorem test_decode_ldMemVx : decodeWord 0b1111000101010101#16 = .ldMemVx 1 := by decide
theorem test_decode_ldVxMem : decodeWord 0b1111000101100101#16 = .ldVxMem 1 := by decide
theorem test_decode_nop8 : decodeWord 0b1000000100101000#16 = .nop8 0x128 ∧ decodeWord 0x812F#16 = .nop8 0x12F := by decide
theorem test_decode_nopE : decodeWord 0b1110000100000000#16 = .nopE 0x100 ∧ decodeWord 0xE19F#16 = .nopE 0x19F := by decide
theorem test_decode_nopF : decodeWord 0b1111000100000000#16 = .nopF 0x100 ∧ decodeWord 0xF117#16 = .nopF 0x117 := by decide

theorem test_decode_refuses_short : decodeBytes [0x12#8] = .error .truncated := by rfl
theorem test_decode_bigEndian : decodeBytes [0x12#8, 0x04#8, 0xFF#8] = .ok (.jp 0x204, [0xFF#8]) := by rfl
theorem test_decodeTableWord : decodeTableWord 16 0x8AB6 = some (.shr 10 11) ∧ decodeTableWord 16 0 = some .cls := by
  decide
theorem test_encode_written_out :
    encode (.drw 1 2 5) = 0xD125#16 ∧ encode (.ldVxMem 15) = 0xFF65#16 ∧ encode (.shl 10 11) = 0x8ABE#16 ∧
      encode (.call 0x204) = 0x2204#16 ∧ encodeBytes (.sknp 10) = [0xEA#8, 0xA1#8] := by decide

/-! ### The memory contract and the call stack (vectors M2 to M12, S1 to S4) -/

theorem test_memory_words :
    (withBytes State.reset 0xFFE [0xA1, 0xB2]).mem.readWord 0xFFE = .ok 0xA1B2#16 ∧
      State.reset.mem.readWord 0xFFF = .error (.outOfRange 0xFFF 2) := by decide +kernel
theorem test_memory_zero_length :
    State.reset.mem.readBlock 0x1000 0 = .ok [] ∧
      State.reset.mem.readBlock 0x1001 0 = .error (.outOfRange 0x1001 0) := by decide +kernel
theorem test_memory_font :
    State.reset.mem.readByte 0x050 = .ok 0xF0#8 ∧ State.reset.mem.readByte 0x09F = .ok 0x80#8 ∧
      State.reset.mem.readByte 0x0A0 = .ok 0x00#8 := by decide +kernel
theorem test_memory_no_wrap : State.reset.mem.writeByte 0xFFFF 1 = .error (.outOfRange 0xFFFF 1) := by decide +kernel
theorem test_memory_canonical :
    (Memory.put (Memory.put [] 0x050 0x11) 0x050 0xF0) = [] ∧
      Memory.put (Memory.put [] 0x301 2) 0x300 1 = [(0x300, 1#8), (0x301, 2#8)] := by decide +kernel
theorem test_stack_faults :
    (State.reset.pop = .error .stackUnderflow) ∧
      (({ State.reset with sp := 16 } : State).push 0x202 = .error .stackOverflow) := by decide +kernel

/-! ### One cycle of each instruction -/

theorem test_cls_G12 :
    let t := cycleOn (withV (withPixels State.reset [(1, 1), (31, 63)]) [(15, 1)]) 0x00E0
    lit t = 0 ∧ shows t [(.pc, 0x202), (.v 15, 1)] = true := by decide +kernel
theorem test_ret_F2 :
    shows (cycleOn { State.reset with sp := 2, stk := (State.reset.stk.set 0 0x300).set 1 0x456 } 0x00EE)
      [(.pc, 0x456), (.sp, 1), (.stk 1, 0x456), (.faulted, 0)] = true := by decide +kernel
theorem test_ret_F4 :
    shows (cycleOn { State.reset with dt := 5 } 0x00EE)
      [(.faulted, 1), (.faultCause, 3), (.faultAddr, 0), (.faultLen, 0), (.pc, 0x202), (.dt, 5)] = true := by
  decide +kernel
theorem test_sys_F1 : cycleOn State.reset 0x0123 = { State.reset.withFetchWord 16 0x0123 with pc := 0x202 } := by
  decide +kernel
theorem test_sys_T20 : shows (cycleOn { State.reset with dt := 1 } 0x0001) [(.dt, 0), (.st, 0)] = true := by
  decide +kernel
theorem test_jp_F5 : shows (cycleOn State.reset 0x1ABC) [(.pc, 0xABC)] = true := by decide +kernel
/-- F6: a jump to an odd address. The next fetch reads `mem[0x201] = 0x01` and `mem[0x202]`, here 0x0E, and `0x010E` is
`RET`, so it goes where the stack says. -/
theorem test_jp_F6 :
    let t := cycleOn { withBytes State.reset 0x202 [0x0E] with sp := 1, stk := State.reset.stk.set 0 0x456 } 0x1201
    shows t [(.pc, 0x201)] = true ∧ t.fetch = .ok 0x010E#16 ∧
      shows (after t) [(.pc, 0x456), (.sp, 0), (.faulted, 0)] = true := by decide +kernel
theorem test_call_F7 :
    shows (cycleOn { State.reset with sp := 15 } 0x2ABC) [(.stk 15, 0x202), (.sp, 16), (.pc, 0xABC)] = true := by
  decide +kernel
theorem test_call_F8 :
    shows (cycleOn { State.reset with sp := 16 } 0x2ABC)
      [(.faulted, 1), (.faultCause, 2), (.faultAddr, 0), (.faultLen, 0), (.pc, 0x202), (.sp, 16), (.stk 15, 0)] = true := by
  decide +kernel
theorem test_seImm_F9 : shows (cycleOn (withV State.reset [(10, 0x42)]) 0x3A42) [(.pc, 0x204)] = true := by decide +kernel
theorem test_seImm_F10 : shows (cycleOn (withV State.reset [(10, 0x43)]) 0x3A42) [(.pc, 0x202)] = true := by
  decide +kernel
theorem test_sneImm_F11 : shows (cycleOn (withV State.reset [(10, 0x42)]) 0x4A42) [(.pc, 0x202)] = true := by
  decide +kernel
theorem test_sneImm_F12 : shows (cycleOn (withV State.reset [(10, 0x43)]) 0x4A42) [(.pc, 0x204)] = true := by
  decide +kernel
theorem test_seReg_F15 : shows (cycleOn (withV State.reset [(10, 7), (11, 7)]) 0x5AB7) [(.pc, 0x204)] = true := by
  decide +kernel
theorem test_seReg_F14 : shows (cycleOn (withV State.reset [(10, 7), (11, 8)]) 0x5AB0) [(.pc, 0x202)] = true := by
  decide +kernel
theorem test_sneReg_F17 : shows (cycleOn (withV State.reset [(10, 7), (11, 7)]) 0x9AB0) [(.pc, 0x202)] = true := by
  decide +kernel
theorem test_sneReg_F18 : shows (cycleOn (withV State.reset [(10, 7), (11, 8)]) 0x9ABF) [(.pc, 0x204)] = true := by
  decide +kernel
theorem test_jpV0_F19 : shows (cycleOn (withV State.reset [(0, 0x10), (3, 0x20)]) 0xB300) [(.pc, 0x310)] = true := by
  decide +kernel
theorem test_jpV0_F20 :
    let t := cycleOn (withV State.reset [(0, 0xFF)]) 0xBFFF
    shows t [(.pc, 0x10FE)] = true ∧
      shows (after t) [(.faulted, 1), (.faultCause, 1), (.faultAddr, 0x10FE), (.faultLen, 2), (.pc, 0x10FE)] = true := by
  decide +kernel
theorem test_fetch_F21 :
    shows (cycleOn { withV State.reset [(10, 0x42)] with pc := 0xFFE } 0x3A42) [(.pc, 0x1002), (.faulted, 0)] = true := by
  decide +kernel
theorem test_ldImm_A2 : shows (cycleOn State.reset 0x6F01) [(.v 15, 1)] = true := by decide +kernel
theorem test_addImm_A3 :
    shows (cycleOn (withV State.reset [(10, 2), (15, 7)]) 0x7AFF) [(.v 10, 1), (.v 15, 7)] = true := by decide +kernel
theorem test_addImm_A4 : shows (cycleOn (withV State.reset [(15, 0xFF)]) 0x7F01) [(.v 15, 0)] = true := by decide +kernel
theorem test_ldReg_A5 : shows (cycleOn (withV State.reset [(11, 0x5A)]) 0x8AB0) [(.v 10, 0x5A), (.v 11, 0x5A)] = true := by
  decide +kernel
theorem test_orReg_A6 :
    shows (cycleOn (withV State.reset [(10, 0xF0), (11, 0x0F), (15, 9)]) 0x8AB1) [(.v 10, 0xFF), (.v 15, 9)] = true := by
  decide +kernel
theorem test_andReg_A7 :
    shows (cycleOn (withV State.reset [(10, 0xF0), (11, 0x3C), (15, 9)]) 0x8AB2) [(.v 10, 0x30), (.v 15, 9)] = true := by
  decide +kernel
theorem test_xorReg_A8 :
    shows (cycleOn (withV State.reset [(10, 0xF0), (11, 0x3C), (15, 9)]) 0x8AB3) [(.v 10, 0xCC), (.v 15, 9)] = true := by
  decide +kernel
theorem test_addReg_A10 :
    shows (cycleOn (withV State.reset [(10, 0xFF), (11, 1)]) 0x8AB4) [(.v 10, 0), (.v 15, 1)] = true := by decide +kernel
theorem test_addReg_A27 :
    shows (cycleOn (withV State.reset [(15, 0xFF), (1, 1)]) 0x8F14) [(.v 15, 0)] = true := by decide +kernel
theorem test_subReg_A16 :
    shows (cycleOn (withV State.reset [(10, 5), (11, 5), (15, 1)]) 0x8AB5) [(.v 10, 0), (.v 15, 0)] = true := by
  decide +kernel
theorem test_subReg_A29 :
    shows (cycleOn (withV State.reset [(1, 5), (15, 3)]) 0x81F5) [(.v 1, 2), (.v 15, 1)] = true := by decide +kernel
theorem test_shr_A21 :
    shows (cycleOn (withV State.reset [(10, 3), (11, 0xF0)]) 0x8AB6) [(.v 10, 1), (.v 11, 0xF0), (.v 15, 1)] = true := by
  decide +kernel
theorem test_shr_A30 : shows (cycleOn (withV State.reset [(15, 6)]) 0x8F06) [(.v 15, 3)] = true := by decide +kernel
theorem test_subnReg_A18 :
    shows (cycleOn (withV State.reset [(10, 1), (11, 5)]) 0x8AB7) [(.v 10, 4), (.v 15, 1)] = true := by decide +kernel
theorem test_subnReg_A19 :
    shows (cycleOn (withV State.reset [(10, 5), (11, 1)]) 0x8AB7) [(.v 10, 0xFC), (.v 15, 0)] = true := by decide +kernel
theorem test_shl_A24 :
    shows (cycleOn (withV State.reset [(10, 0x81), (11, 1)]) 0x8ABE) [(.v 10, 2), (.v 11, 1), (.v 15, 1)] = true := by
  decide +kernel
theorem test_shl_A31 : shows (cycleOn (withV State.reset [(15, 0x81)]) 0x8FFE) [(.v 15, 2)] = true := by decide +kernel
theorem test_ldI_X1 : shows (cycleOn State.reset 0xAFFF) [(.i, 0xFFF)] = true := by decide +kernel

/-- A33 with the draw left free: the low four bits of the byte drawn. -/
theorem test_rnd_A33 : (ran (.rnd 10 0x0F#8) State.reset).reg 10 = Config.randByte 0 &&& 0x0F#8 := by
  simp [ran, nextOf, exec, execRnd, State.draw, State.reset]
/-- A34: mask 0 gives 0 for every draw. -/
theorem test_rnd_A34 : (ran (.rnd 10 0x00#8) (withV State.reset [(10, 9)])).reg 10 = 0x00#8 := by
  simp [ran, nextOf, exec, execRnd, State.draw]

theorem test_addIVx_X2 :
    shows (cycleOn { withV State.reset [(10, 1), (15, 7)] with i := 0xFFF } 0xFA1E)
      [(.i, 0x1000), (.v 15, 7), (.faulted, 0)] = true := by decide +kernel
theorem test_addIVx_X3 : shows (cycleOn { withV State.reset [(10, 2)] with i := 0xFFFF } 0xFA1E) [(.i, 1)] = true := by
  decide +kernel
theorem test_ldFVx_X5 : shows (cycleOn (withV State.reset [(10, 0x0F)]) 0xFA29) [(.i, 0x9B)] = true := by decide +kernel
theorem test_ldFVx_X7 : shows (cycleOn (withV State.reset [(10, 0xFF)]) 0xFA29) [(.i, 0x54B)] = true := by decide +kernel
theorem test_ldBVx_X10 :
    shows (cycleOn { withV State.reset [(10, 255)] with i := 0xFFD } 0xFA33)
      [(.mem 0xFFD, 2), (.mem 0xFFE, 5), (.mem 0xFFF, 5), (.i, 0xFFD), (.faulted, 0)] = true := by decide +kernel
theorem test_ldBVx_X11 :
    shows (cycleOn { withV State.reset [(10, 255)] with i := 0xFFE } 0xFA33)
      [(.faulted, 1), (.faultCause, 1), (.faultAddr, 0xFFE), (.faultLen, 3), (.mem 0xFFE, 0), (.mem 0xFFF, 0),
       (.pc, 0x202)] = true := by decide +kernel
theorem test_ldMemVx_X13 :
    shows (cycleOn { withV State.reset [(0, 0x11), (1, 0x22), (2, 0x33), (3, 0x44)] with i := 0x400 } 0xF255)
      [(.mem 0x400, 0x11), (.mem 0x401, 0x22), (.mem 0x402, 0x33), (.mem 0x403, 0), (.i, 0x400)] = true := by
  decide +kernel
theorem test_ldMemVx_X17 :
    shows (cycleOn { withV State.reset [(0, 0xA0), (15, 0xAF)] with i := 0xFF1 } 0xFF55)
      [(.faulted, 1), (.faultCause, 1), (.faultAddr, 0xFF1), (.faultLen, 16), (.mem 0xFF1, 0)] = true := by
  decide +kernel
theorem test_ldVxMem_X18 :
    shows (cycleOn { withV State.reset [(3, 0x99)] with i := 0x050 } 0xF265)
      [(.v 0, 0xF0), (.v 1, 0x90), (.v 2, 0x90), (.v 3, 0x99), (.i, 0x050)] = true := by decide +kernel
theorem test_ldVxMem_X20 :
    shows (cycleOn { withV State.reset [(0, 7), (1, 8)] with i := 0xFFF } 0xF165)
      [(.faulted, 1), (.faultCause, 1), (.faultAddr, 0xFFF), (.faultLen, 2), (.v 0, 7), (.v 1, 8)] = true := by
  decide +kernel

/-- The start of program P4: the sprite `C0 80` at 0x300, its origin in the lower right corner. -/
def cornerSprite : State := { withV (withBytes State.reset 0x300 [0xC0, 0x80]) [(0, 63), (1, 31)] with i := 0x300 }

theorem test_drw_P4 :
    let t := cycleOn cornerSprite 0xD012
    lit t = 3 ∧ shows t [(.pixel 31 63, 1), (.pixel 31 0, 1), (.pixel 0 63, 1), (.v 15, 0)] = true ∧
      lit (ran (.drw 0 1 2) t) = 0 ∧ shows (ran (.drw 0 1 2) t) [(.v 15, 1)] = true := by decide +kernel
theorem test_drw_G11 :
    let t := cycleOn { withV (withBytes State.reset 0x300 [0x80]) [(15, 3), (1, 2)] with i := 0x300 } 0xDF11
    lit t = 1 ∧ shows t [(.pixel 2 3, 1), (.v 15, 0)] = true := by decide +kernel
theorem test_drw_G5_G6 :
    shows (cycleOn { withV State.reset [(15, 1)] with i := 0x1000 } 0xD010) [(.v 15, 0), (.faulted, 0)] = true ∧
      shows (cycleOn { withV State.reset [(15, 1)] with i := 0x1001 } 0xD010)
        [(.v 15, 1), (.faulted, 1), (.faultCause, 1), (.faultAddr, 0x1001), (.faultLen, 0)] = true := by decide +kernel
theorem test_skp_T5 : shows (cycleOn (withV (State.reset.press 5) [(10, 0x15)]) 0xEA9E) [(.pc, 0x204)] = true := by
  decide +kernel
theorem test_skp_T2 : shows (cycleOn (withV State.reset [(10, 5)]) 0xEA9E) [(.pc, 0x202)] = true := by decide +kernel
theorem test_sknp_T3 : shows (cycleOn (withV (State.reset.press 5) [(10, 5)]) 0xEAA1) [(.pc, 0x202)] = true := by
  decide +kernel
theorem test_sknp_T7 : shows (cycleOn (withV State.reset [(10, 5)]) 0xEAF1) [(.pc, 0x204)] = true := by decide +kernel
theorem test_ldVxDT_T9 : shows (cycleOn { State.reset with dt := 0x20 } 0xFA07) [(.v 10, 0x20), (.dt, 0x1F)] = true := by
  decide +kernel
theorem test_ldDTVx_T17 :
    shows (cycleOn { withV State.reset [(10, 0xFF)] with dt := 3, st := 1 } 0xFA15) [(.dt, 0xFE), (.st, 0)] = true := by
  decide +kernel
theorem test_ldSTVx_T13 : shows (cycleOn (withV State.reset [(10, 0x10)]) 0xFA18) [(.st, 0x0F), (.dt, 0)] = true := by
  decide +kernel
theorem test_ldVxK_T14 :
    shows (cycleOn State.reset 0xFA0A) [(.wait, 1), (.waitReg, 10), (.pc, 0x202), (.v 10, 0)] = true := by decide +kernel
theorem test_ldVxK_T15 :
    shows (cycleOn (withV ((State.reset.press 3).press 12) [(10, 0xEE)]) 0xFA0A)
      [(.v 10, 3), (.wait, 0), (.pc, 0x202)] = true := by decide +kernel
theorem test_nop8_A36 :
    shows (cycleOn { withV State.reset [(10, 1), (11, 2)] with dt := 1, st := 2 } 0x8AB8)
      [(.v 10, 1), (.v 11, 2), (.v 15, 0), (.dt, 0), (.st, 1), (.pc, 0x202)] = true := by decide +kernel
theorem test_nopE_T8 : shows (cycleOn (withV (State.reset.press 5) [(10, 5)]) 0xEA9F) [(.pc, 0x202)] = true := by
  decide +kernel
theorem test_nopF_X22 : shows (cycleOn (withV State.reset [(1, 3)]) 0xF1FF) [(.v 1, 3), (.pc, 0x202)] = true := by
  decide +kernel

/-! ### The cycle and the ports -/

/-- The state of vector T18: waiting for `V3`, nothing pressed. -/
def waiting : State := { State.reset with wait := true, waitReg := 3, pc := 0x202, dt := 4 }

/-- The state of vector T22. -/
def faulted : State := { State.reset with faulted := true, faultCause := 3, dt := 5, pc := 0x202 }

theorem test_retry_T18 : shows (after waiting) [(.wait, 1), (.pc, 0x202), (.dt, 3), (.v 3, 0)] = true := by decide +kernel
theorem test_retry_T19 :
    shows (after ((waiting.press 9).press 7)) [(.v 3, 7), (.wait, 0), (.waitReg, 0), (.pc, 0x202), (.dt, 3)] = true := by decide +kernel
theorem test_faulted_T22 : after faulted = faulted := by decide +kernel
theorem test_withFetchWord_ready : (State.reset.withFetchWord 16 0x1ABC).fetch = .ok 0x1ABC#16 := by decide +kernel
theorem test_withFetchWord_keeps_all_else :
    { State.reset.withFetchWord 16 0x1ABC with mem := [] } = State.reset := by decide +kernel
theorem test_withFetchWord_top :
    shows (cycleOn { State.reset with pc := 0xFFF } 0x1ABC) [(.pc, 0xABC)] = true ∧
      shows (cycleOn faulted 0x1ABC) [(.pc, 0xABC), (.faulted, 0)] = true ∧
      shows (cycleOn waiting 0x1ABC) [(.pc, 0xABC), (.wait, 0)] = true := by decide +kernel
theorem test_reset_port : ({ faulted with draws := 7 } : State).resetPort = { State.reset with draws := 7 } := by
  decide +kernel
theorem test_image_moves :
    ((Env.mk State.reset false).moves (imageMoves [0x12, 0x04])).map Env.core = State.reset.loadImage [0x12, 0x04] := by
  decide +kernel
theorem test_load_only_before_step :
    ((Env.mk State.reset false).move (.load 0x200 0x12)).isSome = true ∧
      (Env.mk State.reset true).move (.load 0x200 0x12) = none ∧
      (Env.mk State.reset false).move (.load 0x1FF 0x12) = none := by decide +kernel

/-! ### Witnesses: a state and operands that meet the hypotheses of each obligation that has any -/

/-- A state about to run `LD V10, 0x42` at the last address an opcode can be fetched from. -/
def atTop : State := ({ State.reset with pc := 0xFFE } : State).withFetchWord 16 0x6A42

/-- A state about to run the opcode `w` at the reset vector, with `V10 = V11 = 7`, both timers at 3. -/
def about (w : Nat) : State := { withV (State.reset.withFetchWord 16 w) [(10, 7), (11, 7)] with dt := 3, st := 3 }

theorem witness_DecodeOfEncode :
    (Instr.nopF 0x175).WellFormed ∧ (Instr.nopE 0x19F).WellFormed ∧ (Instr.nop8 0xAB8).WellFormed ∧
      (Instr.sys 0x123).WellFormed ∧ (Instr.drw 15 15 0xF).WellFormed := by decide
theorem witness_EncodeOfDecode :
    (∀ f ∈ [0x0, 0x5, 0x9, 0xE], (0x8AB8#16).toNat / 4096 ≠ f) ∧ (∀ f ∈ [0x0, 0x5, 0x9, 0xE], (0xFFFF#16).toNat / 4096 ≠ f) := by
  decide
theorem witness_StepRunsDecoded :
    atTop.faulted = false ∧ atTop.wait = false ∧ atTop.pc.toNat + 2 = 4096 ∧ (Instr.ldImm 10 0x42).WellFormed ∧
      decodeBytes [atTop.mem.byteAt atTop.pc.toNat, atTop.mem.byteAt (atTop.pc.toNat + 1)] = .ok (.ldImm 10 0x42, []) ∧
      exec (.ldImm 10 0x42) { atTop with pc := atTop.pc + 2 } =
        .next (ran (.ldImm 10 0x42) { atTop with pc := atTop.pc + 2 }) :=
  ⟨by decide +kernel, by decide +kernel, by decide +kernel, by decide, by decide +kernel, exec_ran (by decide +kernel)⟩
theorem witness_FetchWindow :
    atTop.pc.toNat + 2 ≤ 4096 ∧
      let s : State := { State.reset with pc := 0xFFF }
      0x0FFF ≤ s.pc.toNat ∧ s.faulted = false ∧ s.wait = false := by decide +kernel
theorem witness_TimerDecay_faulted : step faulted = .next (after faulted) ∧ faulted.faulted = true :=
  ⟨step_after (by decide +kernel), by decide⟩
theorem witness_TimerDecay_faults :
    let s := State.reset.withFetchWord 16 0x00EE
    step s = .next (after s) ∧ s.faulted = false ∧ (after s).faulted = true :=
  ⟨step_after (by decide +kernel), by decide +kernel⟩
theorem witness_TimerDecay_waiting :
    step waiting = .next (after waiting) ∧ waiting.faulted = false ∧ (after waiting).faulted = false ∧
      waiting.wait = true := ⟨step_after (by decide +kernel), by decide +kernel⟩
theorem witness_TimerDecay_runs :
    step atTop = .next (after atTop) ∧ atTop.faulted = false ∧ (after atTop).faulted = false ∧ atTop.wait = false :=
  ⟨step_after (by decide +kernel), by decide +kernel⟩
theorem witness_TimerLoadDecays :
    ∀ p ∈ [(0xFA15, Instr.ldDTVx 10), (0xFA18, .ldSTVx 10), (0xFA07, .ldVxDT 10)],
      (about p.1).faulted = false ∧ (about p.1).wait = false ∧ (about p.1).fetch = .ok (BitVec.ofNat 16 p.1) ∧
        (nextOf (step (about p.1))).isSome = true ∧ decodeWord (BitVec.ofNat 16 p.1) = p.2 := by decide +kernel
theorem witness_FaultedMachineStays : faulted.faulted = true := by decide
theorem witness_RetryOfWait_none :
    waiting.faulted = false ∧ waiting.wait = true ∧ ∀ k : KeyNum, waiting.view (.key k) = 0 := by decide +kernel
theorem witness_RetryOfWait_key :
    let s := waiting.press 15
    s.faulted = false ∧ s.wait = true ∧ s.view (.key 15) = 1 ∧ ∀ j : KeyNum, j < 15 → s.view (.key j) = 0 := by
  decide +kernel
theorem witness_JumpAndSkipCycle :
    ∀ p ∈ [(0x1ABC, Instr.jp 0xABC), (0x3A07, .seImm 10 7), (0x3A08, .seImm 10 8), (0x5AB0, .seReg 10 11)],
      (about p.1).faulted = false ∧ (about p.1).wait = false ∧ (about p.1).fetch = .ok (BitVec.ofNat 16 p.1) ∧
        (nextOf (step (about p.1))).isSome = true ∧ decodeWord (BitVec.ofNat 16 p.1) = p.2 := by decide +kernel

/-- A state with nothing listed, nothing faulted and the registers of a run meets the invariant. -/
theorem inv_of_running (s : State) (hm : s.mem = []) (hf : s.faulted = false) (hpc : s.pc.toNat ≤ 0x10FE)
    (hs : ∀ k : Fin 16, (s.stk[k]).toNat ≤ 0x1000) (h1 : s.faultCause = 0) (h2 : s.faultAddr = 0) (h3 : s.faultLen = 0)
    (hw : s.wait = false → s.waitReg = 0) :
    s.Inv where
  memWf := by rw [hm]; rfl
  pcBound := hpc
  stkBound := hs
  recordZero _ := ⟨h1, h2, h3⟩
  causeGiven h := by simp [hf] at h
  recordTrue h := by simp [hf] at h
  recordEmpty h := by simp [hf] at h
  waitRuns _ := hf
  waitRegClear := hw

/-- A state other than reset, waiting with a full stack. -/
def busy : State := { waiting with sp := 16, stk := Vector.replicate 16 0x1000, pc := 0x10FE }

theorem witness_StepKeepsInv : busy.Inv ∧ step busy = .next (after busy) :=
  ⟨inv_of_running busy rfl rfl (by decide) (by decide) rfl rfl rfl (by decide), step_after (by decide +kernel)⟩
theorem witness_OutsideMovesKeepInv :
    busy.Inv ∧ ∀ m ∈ [Move.reset, .step, .load 0x200 0x12, .load 0xFFF 0, .press 15, .release 0],
      ((Env.mk busy false).move m).isSome = true :=
  ⟨inv_of_running busy rfl rfl (by decide) (by decide) rfl rfl rfl (by decide), by decide +kernel⟩
theorem witness_PartsDetermineState :
    ∃ s t : State, s.mem.wf = true ∧ t.mem.wf = true ∧ (∀ p, s.view p = t.view p) ∧ s.mem ≠ [] :=
  ⟨atTop, atTop, by decide +kernel, by decide +kernel, fun _ => rfl, by decide +kernel⟩
theorem witness_CyclesKeepKeys : step (waiting.press 4) = .next (after (waiting.press 4)) :=
  step_after (by decide +kernel)
theorem witness_OnlyCallRetTouchStack :
    exec .cls busy = .next (ran .cls busy) ∧ (∀ nnn, Instr.cls ≠ .call nnn) ∧ Instr.cls ≠ .ret :=
  ⟨exec_ran (by decide +kernel), by simp, by simp⟩
theorem witness_OnlyClsDrwWritePixels :
    exec (.ldVxMem 15) atTop = .next (ran (.ldVxMem 15) atTop) ∧ Instr.ldVxMem 15 ≠ .cls ∧
      ∀ x y n, Instr.ldVxMem 15 ≠ .drw x y n := ⟨exec_ran (by decide +kernel), by simp, by simp⟩
theorem witness_OnlyTwoWriteMemory :
    exec (.ldVxMem 15) atTop = .next (ran (.ldVxMem 15) atTop) ∧ (∀ x, Instr.ldVxMem 15 ≠ .ldBVx x) ∧
      ∀ x, Instr.ldVxMem 15 ≠ .ldMemVx x := ⟨exec_ran (by decide +kernel), by simp, by simp⟩
theorem witness_OnlyFlowChangesPc :
    exec (.ldVxK 3) atTop = .next (ran (.ldVxK 3) atTop) ∧
      (∀ x kk, Instr.ldVxK 3 ≠ .seImm x kk ∧ Instr.ldVxK 3 ≠ .sneImm x kk) ∧
      (∀ x y, Instr.ldVxK 3 ≠ .seReg x y ∧ Instr.ldVxK 3 ≠ .sneReg x y) ∧
      (∀ x, Instr.ldVxK 3 ≠ .skp x ∧ Instr.ldVxK 3 ≠ .sknp x) ∧
      (∀ nnn, Instr.ldVxK 3 ≠ .jp nnn ∧ Instr.ldVxK 3 ≠ .call nnn ∧ Instr.ldVxK 3 ≠ .jpV0 nnn) ∧
      Instr.ldVxK 3 ≠ .ret :=
  ⟨exec_ran (by decide +kernel), by simp, by simp, by simp, by simp, by simp⟩
theorem witness_WritersOfSpecialRegisters :
    exec .cls atTop = .next (ran .cls atTop) ∧ (∀ nnn, Instr.cls ≠ .ldI nnn) ∧
      (∀ x, Instr.cls ≠ .addIVx x ∧ Instr.cls ≠ .ldFVx x) ∧ (∀ x, Instr.cls ≠ .ldDTVx x) ∧
      (∀ x, Instr.cls ≠ .ldSTVx x) ∧ (∀ x, Instr.cls ≠ .ldVxK x) ∧ ∀ x kk, Instr.cls ≠ .rnd x kk :=
  ⟨exec_ran (by decide +kernel), by simp, by simp, by simp, by simp, by simp, by simp⟩
theorem witness_SixWriteVf_not :
    exec (.ldVxMem 14) atTop = .next (ran (.ldVxMem 14) atTop) ∧ ¬ resultInVf (.ldVxMem 14) ∧
      ¬ flagWriter (.ldVxMem 14) ∧ ¬ resultInVf (.ldReg 14 15) ∧ ¬ resultInVf (.seReg 15 15) :=
  ⟨exec_ran (by decide +kernel), by simp [resultInVf], id, by simp [resultInVf], id⟩
theorem witness_SixWriteVf :
    exec (.addReg 14 15) atTop = .next (ran (.addReg 14 15) atTop) ∧ ¬ resultInVf (.addReg 14 15) ∧
      flagWriter (.addReg 14 15) ∧ (ran (.addReg 14 15) atTop).faulted = false :=
  ⟨exec_ran (by decide +kernel), by simp [resultInVf], trivial, by decide +kernel⟩
theorem witness_SixWriteVf_drw :
    exec (.drw 15 15 1) atTop = .next (ran (.drw 15 15 1) atTop) ∧ ¬ resultInVf (.drw 15 15 1) ∧
      flagWriter (.drw 15 15 1) ∧ (ran (.drw 15 15 1) atTop).faulted = false :=
  ⟨exec_ran (by decide +kernel), id, trivial, by decide +kernel⟩
theorem witness_VfReadOnlyByName :
    let s' := atTop.setReg 15 9
    ¬ namesVf (.jpV0 0x300) ∧ KeepsAllBut (fun p => p = .v 15) atTop s' ∧
      exec (.jpV0 0x300) atTop = .next (ran (.jpV0 0x300) atTop) ∧ exec (.jpV0 0x300) s' = .next (ran (.jpV0 0x300) s') :=
  ⟨id, State.setReg_keeps atTop 15 9, exec_ran (by decide +kernel), exec_ran (by decide +kernel)⟩
theorem witness_DispatchFaultsArePrecise :
    let s : State := { State.reset with sp := 16, i := 0x1001 }
    s.faulted = false ∧ ∀ i ∈ [Instr.call 0x200, .drw 0 0 0, .drw 1 2 15, .ldBVx 0, .ldMemVx 0, .ldVxMem 15],
      (nextOf (exec i s)).isSome = true ∧ (ran i s).faulted = true := by decide +kernel
theorem witness_DispatchFaultsArePrecise_ret :
    State.reset.faulted = false ∧ exec .ret State.reset = .next (ran .ret State.reset) ∧
      (ran .ret State.reset).faulted = true := ⟨rfl, exec_ran (by decide +kernel), by decide +kernel⟩
theorem witness_NoOpsChangeNothing : Instr.nopF 0x175 ∈ [Instr.sys 0x175, .nop8 0x175, .nopE 0x175, .nopF 0x175] := by
  decide
theorem witness_JumpResult :
    (0x1FFF#16).toNat = 0x1000 + (0xFFF#12).toNat ∧
      (about 0x1FFF).faulted = false ∧ (about 0x1FFF).wait = false ∧
      (about 0x1FFF).fetch = .ok (encode (.jp 0xFFF)) := by decide +kernel
theorem witness_CallResult :
    State.reset.view .sp = (0 : Fin 16).val ∧ ({ State.reset with sp := 15 } : State).view .sp = (15 : Fin 16).val := by
  decide
theorem witness_RetResult :
    ({ State.reset with sp := 1 } : State).view .sp = (0 : Fin 16).val + 1 ∧ busy.view .sp = (15 : Fin 16).val + 1 := by
  decide
theorem witness_StackFaults :
    busy.view .sp = 16 ∧ State.reset.view .sp = 0 ∧
      (let s : State := { State.reset with sp := 15 }
       s.view .sp < 16 ∧ exec (.call 0x200) s = .next (ran (.call 0x200) s)) ∧
      (let s : State := { State.reset with sp := 1 }
       0 < s.view .sp ∧ exec .ret s = .next (ran .ret s)) :=
  ⟨by decide, by decide, ⟨by decide, exec_ran (by decide +kernel)⟩, ⟨by decide, exec_ran (by decide +kernel)⟩⟩
theorem witness_CallThenRet :
    let s : State := { State.reset with sp := 15 }
    let t := ran (.call 0x300) s
    let u := ran (.ldImm 1 2) t
    s.view .sp = (15 : Fin 16).val ∧ exec (.call 0x300) s = .next t ∧ u.view .sp = t.view .sp ∧
      u.view (.stk 15) = t.view (.stk 15) ∧ exec .ret u = .next (ran .ret u) :=
  ⟨by decide, exec_ran (by decide +kernel), by decide +kernel, by decide +kernel, exec_ran (by decide +kernel)⟩
theorem witness_SkipOnImmediate :
    (0x3AFF#16).toNat = 0x3000 + 256 * (10 : RegNum).val + (0xFF#8).toNat ∧
      (0x4AFF#16).toNat = 0x4000 + 256 * (10 : RegNum).val + (0xFF#8).toNat ∧
      ∀ p ∈ [(0x3A07, Instr.seImm 10 7), (0x3A08, .seImm 10 8), (0x4A07, .sneImm 10 7), (0x4A08, .sneImm 10 8)],
        (about p.1).faulted = false ∧ (about p.1).wait = false ∧ (about p.1).fetch = .ok (BitVec.ofNat 16 p.1) ∧
          decodeWord (BitVec.ofNat 16 p.1) = p.2 := by decide +kernel
theorem witness_SkipOnRegisters :
    (0x5ABF#16).toNat = 0x5000 + 256 * (10 : RegNum).val + 16 * (11 : RegNum).val + (15 : Fin 16).val ∧
      (0x9AB0#16).toNat = 0x9000 + 256 * (10 : RegNum).val + 16 * (11 : RegNum).val + (0 : Fin 16).val ∧
      ∀ p ∈ [(0x5AB0, Instr.seReg 10 11), (0x5A90, .seReg 10 9), (0x9AB0, .sneReg 10 11), (0x9A90, .sneReg 10 9)],
        (about p.1).faulted = false ∧ (about p.1).wait = false ∧ (about p.1).fetch = .ok (BitVec.ofNat 16 p.1) ∧
          decodeWord (BitVec.ofNat 16 p.1) = p.2 := by decide +kernel
theorem witness_AddWithCarry_and_others :
    (10 : RegNum) ≠ 15 ∧ (0 : RegNum) ≠ 15 ∧ (0x8AF4#16).toNat = 0x8004 + 256 * (10 : RegNum).val + 16 * (15 : RegNum).val := by
  decide
theorem witness_SubtractBothOrders :
    (0x8AF5#16).toNat = 0x8005 + 256 * (10 : RegNum).val + 16 * (15 : RegNum).val ∧
      (0x80F7#16).toNat = 0x8007 + 256 * (0 : RegNum).val + 16 * (15 : RegNum).val := by decide
theorem witness_RandomAndImmediate : (0xCA0F#16).toNat = 0xC000 + 256 * (10 : RegNum).val + (0x0F#8).toNat := by decide
theorem witness_BcdStore :
    (0xFA33#16).toNat = 0xF033 + 256 * (10 : RegNum).val ∧
      ({ State.reset with i := 0xFFD } : State).view .i + 3 ≤ 4096 ∧
      4096 < ({ State.reset with i := 0xFFE } : State).view .i + 3 := by decide
theorem witness_BlockStore_and_Load :
    (0xFF55#16).toNat = 0xF055 + 256 * (15 : RegNum).val ∧ (0xFF65#16).toNat = 0xF065 + 256 * (15 : RegNum).val ∧
      ({ State.reset with i := 0xFF0 } : State).view .i + ((15 : RegNum).val + 1) ≤ 4096 ∧
      4096 < ({ State.reset with i := 0xFF1 } : State).view .i + ((15 : RegNum).val + 1) ∧
      (14 : RegNum) < 15 ∧ (0xFFE#16).toNat = ({ State.reset with i := 0xFF0 } : State).view .i + (14 : RegNum).val := by
  decide
theorem witness_MemoryRoundTrip :
    (0xFF0#16).toNat + (List.replicate 16 0xA0#8).length ≤ 4096 ∧ (0x1000#16).toNat + ([] : List Byte).length ≤ 4096 := by
  decide
theorem witness_ByteAccess : (0xFFF#16).toNat ≤ 0xFFF ∧ 0xFFF < (0x1000#16).toNat := by decide
theorem witness_WordsAreBigEndian : (0xFFE#16).toNat ≤ 0xFFE := by decide
theorem witness_ClearScreen : (0x0AB0#16).toNat = 16 * (0xAB : Fin 256).val := by decide
theorem witness_DrawSprite :
    (0xDABF#16).toNat = 0xD000 + 256 * (10 : RegNum).val + 16 * (11 : RegNum).val + (0xF#4).toNat ∧
      ({ State.reset with i := 0x1000 } : State).view .i + (0x0#4).toNat ≤ 4096 ∧
      cornerSprite.view .i + (0x2#4).toNat ≤ 4096 ∧
      4096 < ({ State.reset with i := 0x1001 } : State).view .i + (0x0#4).toNat := by decide +kernel
theorem witness_SpriteWrapsPerPixel :
    let rows := List.replicate 15 0xFF#8
    rows.length ≤ 15 ∧ 14 < rows.length ∧ (6 : Fin 64).val = ((63#8).toNat + 7) % 64 ∧
      (13 : Fin 32).val = ((31#8).toNat + 14) % 32 := by decide
theorem witness_DrawTwiceRestores :
    let t := ran (.drw 0 1 2) cornerSprite
    cornerSprite.view .i + (0x2#4).toNat ≤ 4096 ∧ exec (.drw 0 1 2) cornerSprite = .next t ∧
      t.reg 0 = cornerSprite.reg 0 ∧ t.reg 1 = cornerSprite.reg 1 ∧
      exec (.drw 0 1 2) t = .next (ran (.drw 0 1 2) t) ∧ ∀ r c, cornerSprite.view (.pixel r c) = 0 :=
  ⟨by decide +kernel, exec_ran (by decide +kernel), by decide +kernel, by decide +kernel, exec_ran (by decide +kernel),
    by decide +kernel⟩
theorem witness_KeySkips :
    (5 : KeyNum).val = (withV State.reset [(10, 0x15)]).view (.v 10) % 16 ∧
      (15 : KeyNum).val = (withV State.reset [(10, 0xFF)]).view (.v 10) % 16 := by decide
theorem witness_WaitForKey :
    (∀ k : KeyNum, State.reset.view (.key k) = 0) ∧ (State.reset.press 0).view (.key 0) = 1 ∧
      (∀ j : KeyNum, j < 0 → (State.reset.press 0).view (.key j) = 0) ∧ ((State.reset.press 15).view (.key 15) = 1) ∧
      ∀ j : KeyNum, j < 15 → (State.reset.press 15).view (.key j) = 0 := by decide +kernel
theorem witness_LoaderWritesImage_moves :
    (Env.mk busy false).started = false ∧ 0x200 ≤ (0x200#12).toNat ∧ (0x1FF#12).toNat < 0x200 ∧
      (Env.mk busy true).started = true := by decide
theorem witness_LoaderWritesImage :
    (List.replicate 3584 0x12#8).length ≤ 3584 ∧ 3584 < (List.replicate 3585 0x12#8).length :=
  ⟨Nat.le_of_eq List.length_replicate, by rw [List.length_replicate]; exact Nat.lt_succ_self 3584⟩

end Sys2Proof.Tests
end

/-! The input source's port: `press` and `release` each write one cell of the latch (10_state.md R26). -/

namespace Sys2Proof.Machine

variable (s : State) (k : KeyNum)

/-! ### The written cell -/

@[simp] theorem State.keyDown_press_same : (s.press k).keyDown k = true := by
  simp [State.keyDown]

@[simp] theorem State.keyDown_release_same : (s.release k).keyDown k = false := by
  simp [State.keyDown]

/-! ### The frames -/

/-- Both moves write one cell of the latch, so they share this frame. -/
theorem State.setKeyCell_keeps (down : Bool) :
    KeepsAllBut (fun p => p = .key k) s { s with key := s.key.set k down } := by
  intro p hp
  cases p with
  | key j =>
    have hne : k.val ≠ j.val := fun h => hp (congrArg Part.key (Fin.ext h).symm)
    simp [State.keyDown, Vector.getElem_set_ne _ _ hne]
  | _ => rfl

theorem State.press_keeps : KeepsAllBut (fun p => p = .key k) s (s.press k) := s.setKeyCell_keeps k true

theorem State.release_keeps : KeepsAllBut (fun p => p = .key k) s (s.release k) := s.setKeyCell_keeps k false

end Sys2Proof.Machine

namespace Sys2Proof

open Sys2Proof.Machine

/-- Settles O59: each move is its write of one latch cell, shown by the cell's own lemma and framed by the shared one. -/
theorem keyPort : Obligations.KeyPort := by
  unfold Obligations.KeyPort
  intro e k
  constructor
  · exact ⟨{ e with core := e.core.press k }, Env.move_press e k, by simp, rfl, e.core.press_keeps k⟩
  · exact ⟨{ e with core := e.core.release k }, Env.move_release e k, by simp, rfl, e.core.release_keeps k⟩

end Sys2Proof

/-! The one-byte write of the memory's contract (20_memory.md R34), as one `put` or the window's error; the block laws
and the one-byte read stand with the memory's own laws. -/

namespace Sys2Proof.Machine

variable (m : Memory) {addr : Word} (val : Byte)

theorem Memory.writeByte_ok (h : addr.toNat + 1 ≤ 4096) : m.writeByte addr val = .ok (m.put addr.toNat val) :=
  m.writeBlock_ok (bs := [val]) h

theorem Memory.writeByte_error (h : 4096 < addr.toNat + 1) : m.writeByte addr val = .error (.outOfRange addr 1) :=
  m.writeBlock_error (bs := [val]) h

end Sys2Proof.Machine

namespace Sys2Proof

open Sys2Proof.Machine

/-- Settles O48: an access in range is the unchecked one, whose round trip and frame are laws of the memory. -/
theorem memoryRoundTrip : Obligations.MemoryRoundTrip := by
  unfold Obligations.MemoryRoundTrip
  intro m addr bytes hrange
  refine ⟨m.putBytes addr.toNat bytes, m.writeBlock_ok hrange, ?_,
    fun a hout => m.byteAt_putBytes_outside addr.toNat a bytes hout⟩
  rw [Memory.readBlock_ok _ hrange, Memory.bytesFrom_putBytes]

/-- Settles O50: the threshold `addr <= 0xFFF` is the bounds check of a one-byte window (R32). -/
theorem byteAccess : Obligations.ByteAccess := by
  unfold Obligations.ByteAccess
  intro m addr val
  constructor
  · intro hle
    have hrange : addr.toNat + 1 ≤ 4096 := by omega
    exact ⟨m.readByte_ok hrange, m.put addr.toNat val, m.writeByte_ok val hrange,
      fun a => m.byteAt_put addr.toNat a val⟩
  · intro hlt
    have hrange : 4096 < addr.toNat + 1 := by omega
    exact ⟨m.readByte_error hrange, m.writeByte_error val hrange⟩

end Sys2Proof

/-! The cycle (40_cycle.md): what fetch answers, what every dispatch answers, and the inversion of one step. -/

namespace Sys2Proof.Machine

/-! ### Fetch -/

/-- The big-endian word of two bytes as a number (20_memory.md R39). -/
theorem toNat_beWord (hi lo : Byte) : (beWord hi lo).toNat = 256 * hi.toNat + lo.toNat := by
  have hhi := hi.isLt
  have hhigh : (hi.setWidth 16 <<< 8).toNat = hi.toNat <<< 8 := by
    simp [Nat.shiftLeft_eq]
    omega
  have hlow : (lo.setWidth 16).toNat = lo.toNat := toNat_zextByte lo
  rw [beWord, BitVec.toNat_or, hhigh, hlow, ← Nat.shiftLeft_add_eq_or_of_lt lo.isLt, Nat.shiftLeft_eq, Nat.mul_comm]

variable {s t u : State} {op : Word}

theorem State.fetch_ok (hpc : s.pc.toNat + 2 ≤ 4096) :
    s.fetch = .ok (beWord (s.mem.byteAt s.pc.toNat) (s.mem.byteAt (s.pc.toNat + 1))) := s.mem.readWord_ok hpc

theorem State.fetch_error (hpc : 4096 < s.pc.toNat + 2) : s.fetch = .error (.outOfRange s.pc 2) :=
  s.mem.readWord_error hpc

/-- A fetch that answers has read a window that exists. -/
theorem State.pc_inRange_of_fetch (hfetch : s.fetch = .ok op) : s.pc.toNat + 2 ≤ 4096 := by
  by_contra hpc
  rw [State.fetch_error (by omega)] at hfetch
  cases hfetch

/-! ### Dispatch -/

/-- `r` answers a next state whose fault bit is that of `s`, or `s` with a fault raised. -/
def AnswersOrRaises (s : State) (r : Host.Outcome State Fault Refusal) : Prop :=
  ∃ u, r = .next u ∧ (u.faulted = s.faulted ∨ ∃ f, u = s.raise f)

@[simp] theorem State.skipIf_faulted (s : State) (c : Bool) : (s.skipIf c).faulted = s.faulted := by
  cases c <;> rfl

theorem State.push_faulted {w : Word} (h : s.push w = .ok t) : t.faulted = s.faulted := by
  unfold State.push at h
  split at h
  · cases h; rfl
  · cases h

theorem State.pop_faulted {p : Word × State} (h : s.pop = .ok p) : p.2.faulted = s.faulted := by
  unfold State.pop at h
  split at h
  · cases h; rfl
  · cases h

/-- An instruction with one check raises its fault in the state before, or ends as its writes leave it
(60_exceptions.md R164). -/
theorem State.settle_map_answersOrRaises {α : Type} (s : State) (r : Except CoreFault α) (write : α → State)
    (hwrite : ∀ a, r = .ok a → (write a).faulted = s.faulted) : AnswersOrRaises s (s.settle (r.map write)) := by
  cases r with
  | ok a => exact ⟨write a, rfl, .inl (hwrite a rfl)⟩
  | error f => exact ⟨s.raise f, rfl, .inr ⟨f, rfl⟩⟩

/-- Every dispatch answers (30_encoding.md R58), and only `raise` sets the fault bit: the checked instructions go
through `settle`, the others write no field of the record. -/
theorem exec_answersOrRaises (i : Instr) (s : State) : AnswersOrRaises s (exec i s) := by
  cases i with
  | ret => exact s.settle_map_answersOrRaises _ _ fun _ h => State.pop_faulted h
  | call nnn => exact s.settle_map_answersOrRaises _ _ fun u h => (State.push_faulted h : u.faulted = s.faulted)
  | drw _ _ _ | ldBVx _ | ldMemVx _ | ldVxMem _ => exact s.settle_map_answersOrRaises _ _ fun _ _ => rfl
  | seImm _ _ | sneImm _ _ | seReg _ _ | sneReg _ _ | skp _ | sknp _ => exact ⟨_, rfl, .inl (s.skipIf_faulted _)⟩
  | ldVxK x =>
    rw [exec, execLdVxK]
    split
    · exact ⟨_, rfl, .inl rfl⟩
    · exact ⟨_, rfl, .inl rfl⟩
  | _ => exact ⟨_, rfl, .inl rfl⟩

/-- A fault of the dispatch step is a raise in the state dispatched on. -/
theorem exec_eq_raise_of_faulted {i : Instr} (hf : s.faulted = false) (hexec : exec i s = .next u)
    (hu : u.faulted = true) : ∃ f, u = s.raise f := by
  obtain ⟨u', hu', hkept | hraised⟩ := exec_answersOrRaises i s
  · cases hexec.symm.trans hu'
    simp [hf, hu] at hkept
  · cases hexec.symm.trans hu'
    exact hraised

/-! ### One step -/

/-- The retry of a wait writes the register it waits for and the wait itself (40_cycle.md R78). -/
theorem State.retryWait_keeps (s : State) :
    KeepsAllBut (fun p => p = .v s.waitReg ∨ p = .wait ∨ p = .waitReg) s s.retryWait := by
  obtain ⟨k, -, hretry⟩ | ⟨-, hretry⟩ := s.retryWait_cases
  · rw [hretry]
    exact ((s.setReg_keeps _ _).weaken fun _ h => .inl h).trans ((State.endWait_keeps _).weaken fun _ h => .inr h)
  · rw [hretry]
    exact KeepsAllBut.refl _

@[simp] theorem State.retryWait_dt (s : State) : s.retryWait.dt = s.dt :=
  BitVec.eq_of_toNat_eq (s.retryWait_keeps .dt (by simp))

@[simp] theorem State.retryWait_st (s : State) : s.retryWait.st = s.st :=
  BitVec.eq_of_toNat_eq (s.retryWait_keeps .st (by simp))

@[simp] theorem State.retryWait_faulted (s : State) : s.retryWait.faulted = s.faulted := by
  obtain ⟨k, -, hretry⟩ | ⟨-, hretry⟩ := s.retryWait_cases
  · simp [hretry]
  · rw [hretry]

theorem step_fetched (hf : s.faulted = false) (hw : s.wait = false) (hfetch : s.fetch = .ok op) :
    step s = finishCycle (exec (decodeWord op) s.stepPc) := by
  simp [step, cycle, hf, hw, hfetch]

/-- A dispatch that answers `u` ends the cycle in `u`, decayed unless it raised (40_cycle.md R75, R76). -/
theorem step_of_exec (hf : s.faulted = false) (hw : s.wait = false) (hfetch : s.fetch = .ok op)
    (hexec : exec (decodeWord op) s.stepPc = .next u) :
    step s = .next (if u.faulted then u else u.decayTimers) := by
  rw [step_fetched hf hw hfetch, hexec, finishCycle]

/-- The four ways through a cycle (40_cycle.md R70): the faulted machine, the retry, the fetch that raises, and the
dispatch. -/
theorem step_cases (hstep : step s = .next t) :
    (s.faulted = true ∧ t = s) ∨
    (s.faulted = false ∧ s.wait = true ∧ t = s.retryWait.decayTimers) ∨
    (s.faulted = false ∧ s.wait = false ∧ 4096 < s.pc.toNat + 2 ∧ t = s.raise (.outOfRange s.pc 2)) ∨
    (s.faulted = false ∧ s.wait = false ∧ ∃ op u, s.fetch = .ok op ∧ exec (decodeWord op) s.stepPc = .next u ∧
      t = if u.faulted then u else u.decayTimers) := by
  cases hf : s.faulted with
  | true =>
    cases hstep.symm.trans (step_faulted s hf)
    exact .inl ⟨rfl, rfl⟩
  | false =>
    cases hw : s.wait with
    | true =>
      cases hstep.symm.trans (step_wait s hf hw)
      exact .inr (.inl ⟨rfl, rfl, rfl⟩)
    | false =>
      by_cases hpc : s.pc.toNat + 2 ≤ 4096
      · obtain ⟨op, hfetch⟩ : ∃ op, s.fetch = .ok op := ⟨_, State.fetch_ok hpc⟩
        obtain ⟨u, hexec, -⟩ := exec_answersOrRaises (decodeWord op) s.stepPc
        cases hstep.symm.trans (step_of_exec hf hw hfetch hexec)
        exact .inr (.inr (.inr ⟨rfl, rfl, op, u, hfetch, hexec, rfl⟩))
      · have hover : 4096 < s.pc.toNat + 2 := by omega
        cases hstep.symm.trans (step_fetch_fault s hf hw hover)
        exact .inr (.inr (.inl ⟨rfl, rfl, hover, rfl⟩))

/-- Timer decay leaves `PC` where the dispatch put it. -/
theorem step_pc_of_exec (hf : s.faulted = false) (hw : s.wait = false) (hfetch : s.fetch = .ok op)
    (hstep : step s = .next t) (hexec : exec (decodeWord op) s.stepPc = .next u) : t.pc = u.pc := by
  cases hstep.symm.trans (step_of_exec hf hw hfetch hexec)
  cases u.faulted <;> rfl

/-- A skip after the advance of a fetched instruction, with no wrap: the fetch bounds `PC` (41_flow.md R94). -/
theorem State.toNat_pc_skipIf_stepPc (hpc : s.pc.toNat + 2 ≤ 4096) (c : Bool) :
    (s.stepPc.skipIf c).pc.toNat = s.pc.toNat + if c then 4 else 2 := by
  cases c with
  | false =>
    change (s.pc + 2).toNat = s.pc.toNat + 2
    bv_omega
  | true =>
    change (s.pc + 2 + 2).toNat = s.pc.toNat + 4
    bv_omega

end Sys2Proof.Machine

namespace Sys2Proof

open Sys2Proof.Machine

/-- Settles O9: by the four ways through a cycle; a dispatch that faults is a raise, which writes no timer. -/
theorem timerDecay : Obligations.TimerDecay := by
  unfold Obligations.TimerDecay
  intro s t hstep
  obtain ⟨hf, rfl⟩ | ⟨hf, hw, rfl⟩ | ⟨hf, hw, -, rfl⟩ | ⟨hf, hw, op, u, hfetch, hexec, rfl⟩ := step_cases hstep
  case inl => simp [hf]
  case inr.inl => simp [hf, hw, toNat_decayed]
  case inr.inr.inl => simp [hf]
  case inr.inr.inr =>
    cases hu : u.faulted with
    | true =>
      obtain ⟨f, rfl⟩ := exec_eq_raise_of_faulted (s := s.stepPc) hf hexec hu
      simp
    | false => simp [hf, hw, hu, hfetch, hexec, toNat_decayed]

/-- Settles O14: `PC` after the cycle is the dispatch's, and the fetch bounds it, so the additions do not wrap. -/
theorem jumpAndSkipCycle : Obligations.JumpAndSkipCycle := by
  unfold Obligations.JumpAndSkipCycle
  intro s t op hf hw hfetch hstep
  have hpc := State.pc_inRange_of_fetch hfetch
  have pc_of_exec {u : State} : exec (decodeWord op) s.stepPc = .next u → t.pc = u.pc :=
    step_pc_of_exec hf hw hfetch hstep
  refine ⟨fun nnn hop => ?_, fun x kk hop => ?_, fun x y hop => ?_⟩
  · have hjp : t.pc = zextAddr nnn := pc_of_exec (by rw [hop]; rfl)
    simp [hjp]
  · have hskip : t.pc = (s.stepPc.skipIf (s.reg x == kk)).pc := pc_of_exec (by rw [hop]; rfl)
    simp [hskip, State.toNat_pc_skipIf_stepPc hpc, BitVec.toNat_inj]
  · have hskip : t.pc = (s.stepPc.skipIf (s.reg x == s.reg y)).pc := pc_of_exec (by rw [hop]; rfl)
    simp [hskip, State.toNat_pc_skipIf_stepPc hpc, BitVec.toNat_inj]

/-- Settles O8: the bounds check of the fetch's window decides, `4096 < PC + 2` being `0x0FFF ≤ PC`. -/
theorem fetchWindow : Obligations.FetchWindow := by
  unfold Obligations.FetchWindow
  intro s
  constructor
  · intro hpc
    exact ⟨_, State.fetch_ok hpc, toNat_beWord _ _⟩
  · intro hpc hf hw
    exact ⟨_, step_fetch_fault s hf hw (by omega), s.raise_outOfRange s.pc (by decide)⟩

end Sys2Proof

/-! The flow family (41_flow.md): its opcodes as numbers, the value of `PC` after a skip, and the whole cycle of one. -/

namespace Sys2Proof

variable {op : Word} {t : Nibble}

/-! ### The fields of an opcode given as a number (30_encoding.md R52) -/

theorem fields_of_toNat_formatA {nnn : Addr12} (hop : op.toNat = 4096 * t.toNat + nnn.toNat) :
    opT op = t ∧ opNnn op = nnn := by
  refine ⟨(opT_eq_iff op t).2 ?_, BitVec.eq_of_toNat_eq ?_⟩
  · omega
  · rw [toNat_opNnn]
    omega

theorem fields_of_toNat_formatXK {x : RegNum} {kk : Byte} (hop : op.toNat = 4096 * t.toNat + 256 * x.val + kk.toNat) :
    opT op = t ∧ opX op = x ∧ opKk op = kk := by
  refine ⟨(opT_eq_iff op t).2 ?_, Fin.ext ?_, (opKk_eq_iff op kk).2 ?_⟩
  · omega
  · rw [val_opX]
    omega
  · omega

/-- The low nibble `m` bears on none of the other fields. -/
theorem fields_of_toNat_formatXYN {x y : RegNum} {m : Fin 16}
    (hop : op.toNat = 4096 * t.toNat + 256 * x.val + 16 * y.val + m.val) : opT op = t ∧ opX op = x ∧ opY op = y := by
  refine ⟨(opT_eq_iff op t).2 ?_, Fin.ext ?_, Fin.ext ?_⟩
  · omega
  · rw [val_opX]
    omega
  · rw [val_opY]
    omega

/-! ### The family nibbles of the jump and the skips (30_encoding.md R56) -/

theorem decodeWord_of_opT_jp (hT : opT op = 0x1#4) : decodeWord op = .jp (opNnn op) := by
  simp [decodeWord, hT]

theorem decodeWord_of_opT_seImm (hT : opT op = 0x3#4) : decodeWord op = .seImm (opX op) (opKk op) := by
  simp [decodeWord, hT]

theorem decodeWord_of_opT_sneImm (hT : opT op = 0x4#4) : decodeWord op = .sneImm (opX op) (opKk op) := by
  simp [decodeWord, hT]

theorem decodeWord_of_opT_seReg (hT : opT op = 0x5#4) : decodeWord op = .seReg (opX op) (opY op) := by
  simp [decodeWord, hT]

theorem decodeWord_of_opT_sneReg (hT : opT op = 0x9#4) : decodeWord op = .sneReg (opX op) (opY op) := by
  simp [decodeWord, hT]

end Sys2Proof

namespace Sys2Proof.Machine

variable {s t : State} {op : Word}

/-! ### A skip in the dispatch step and over the cycle -/

/-- A skip wraps at 2^16 where the state dispatched on is arbitrary (41_flow.md R94). -/
theorem State.toNat_pc_skipIf (s : State) (c : Bool) :
    (s.skipIf c).pc.toNat = (s.pc.toNat + if c then 2 else 0) % 65536 := by
  cases c with
  | false => exact (Nat.mod_eq_of_lt s.pc.isLt).symm
  | true => exact BitVec.toNat_add s.pc 2

/-- The cycle of a fetched opcode answers, since every dispatch does. -/
theorem step_answers_of_fetch (hf : s.faulted = false) (hw : s.wait = false) (hfetch : s.fetch = .ok op) :
    ∃ t, step s = .next t := by
  obtain ⟨u, hexec, -⟩ := exec_answersOrRaises (decodeWord op) s.stepPc
  exact ⟨_, step_of_exec hf hw hfetch hexec⟩

/-- A skip's further 2 comes on top of the cycle's own, and cannot wrap after a fetch. -/
theorem step_pc_of_skip {c : Bool} (hf : s.faulted = false) (hw : s.wait = false) (hfetch : s.fetch = .ok op)
    (hstep : step s = .next t) (hexec : exec (decodeWord op) s.stepPc = .next (s.stepPc.skipIf c)) :
    t.pc.toNat = s.pc.toNat + if c then 4 else 2 := by
  rw [step_pc_of_exec hf hw hfetch hstep hexec, State.toNat_pc_skipIf_stepPc (State.pc_inRange_of_fetch hfetch)]

end Sys2Proof.Machine

namespace Sys2Proof

open Sys2Proof.Machine

/-- Settles O36: each dispatch is one `skipIf`, and an inequality test is the equality test with its branches
exchanged; the cycle of `SE` is that of O14. -/
theorem skipOnImmediate : Obligations.SkipOnImmediate := by
  unfold Obligations.SkipOnImmediate
  intro s x kk
  refine ⟨fun op hop => ?_, fun op hop => ?_, ⟨_, rfl, ?_, s.skipIf_keeps _⟩, ⟨_, rfl, ?_, s.skipIf_keeps _⟩,
    fun op hf hw hfetch => ?_⟩
  · obtain ⟨hT, hX, hKk⟩ := fields_of_toNat_formatXK (t := 0x3#4) hop
    rw [decodeWord_of_opT_seImm hT, hX, hKk]
  · obtain ⟨hT, hX, hKk⟩ := fields_of_toNat_formatXK (t := 0x4#4) hop
    rw [decodeWord_of_opT_sneImm hT, hX, hKk]
  · simp [State.toNat_pc_skipIf, BitVec.toNat_inj]
  · simp [State.toNat_pc_skipIf, BitVec.toNat_inj]
  · obtain ⟨t, hstep⟩ := step_answers_of_fetch hf hw hfetch
    obtain ⟨-, seCycle, -⟩ := jumpAndSkipCycle s t op hf hw hfetch hstep
    refine ⟨t, hstep, seCycle x kk, fun hop => ?_⟩
    have hpc := step_pc_of_skip (c := s.reg x != kk) hf hw hfetch hstep (by rw [hop]; rfl)
    simp [hpc, BitVec.toNat_inj]

/-- Settles O37: as for the immediate forms; the low nibble lies outside the fields that decoding reads. -/
theorem skipOnRegisters : Obligations.SkipOnRegisters := by
  unfold Obligations.SkipOnRegisters
  intro s x y
  refine ⟨fun op m hop => ?_, fun op m hop => ?_, ⟨_, rfl, ?_, s.skipIf_keeps _⟩, ⟨_, rfl, ?_, s.skipIf_keeps _⟩,
    fun op hf hw hfetch => ?_⟩
  · obtain ⟨hT, hX, hY⟩ := fields_of_toNat_formatXYN (t := 0x5#4) hop
    rw [decodeWord_of_opT_seReg hT, hX, hY]
  · obtain ⟨hT, hX, hY⟩ := fields_of_toNat_formatXYN (t := 0x9#4) hop
    rw [decodeWord_of_opT_sneReg hT, hX, hY]
  · simp [State.toNat_pc_skipIf, BitVec.toNat_inj]
  · simp [State.toNat_pc_skipIf, BitVec.toNat_inj]
  · obtain ⟨t, hstep⟩ := step_answers_of_fetch hf hw hfetch
    obtain ⟨-, -, seCycle⟩ := jumpAndSkipCycle s t op hf hw hfetch hstep
    refine ⟨t, hstep, seCycle x y, fun hop => ?_⟩
    have hpc := step_pc_of_skip (c := s.reg x != s.reg y) hf hw hfetch hstep (by rw [hop]; rfl)
    simp [hpc, BitVec.toNat_inj]

/-- Settles O30: the dispatch writes `PC` alone, and the cycle's increment comes before it (O14). -/
theorem jumpResult : Obligations.JumpResult := by
  unfold Obligations.JumpResult
  intro s nnn
  refine ⟨fun op hop => ?_, ⟨_, rfl, toNat_zextAddr nnn, s.setPc_keeps _⟩, fun hf hw hfetch => ?_⟩
  · obtain ⟨hT, hNnn⟩ := fields_of_toNat_formatA (t := 0x1#4) hop
    rw [decodeWord_of_opT_jp hT, hNnn]
  · obtain ⟨t, hstep⟩ := step_answers_of_fetch hf hw hfetch
    obtain ⟨jpCycle, -⟩ := jumpAndSkipCycle s t _ hf hw hfetch hstep
    have hop : decodeWord (encode (.jp nnn)) = .jp nnn := by
      rw [encode, decodeWord_of_opT_jp (opT_formatA _ _), opNnn_formatA]
    exact ⟨t, hstep, jpCycle nnn hop⟩

end Sys2Proof

/-! The flag-producing arithmetic (42_alu.md R107, R108, R110): its opcodes in family 8, the write of
a flag and a result, and their values. -/

namespace Sys2Proof

variable {op : Word}

/-! ### The slots of family 8 (30_encoding.md R56) -/

theorem fields_of_toNat_family8 {x y : RegNum} {n : Nibble}
    (hop : op.toNat = 0x8000 + n.toNat + 256 * x.val + 16 * y.val) :
    opT op = 0x8#4 ∧ opX op = x ∧ opY op = y ∧ opN op = n := by
  have hform : op.toNat = 4096 * (0x8#4).toNat + 256 * x.val + 16 * y.val + (nibbleIndex n).val := by
    simp [hop, nibbleIndex]
    omega
  obtain ⟨hT, hX, hY⟩ := fields_of_toNat_formatXYN hform
  exact ⟨hT, hX, hY, (opN_eq_iff op n).2 (by omega)⟩

theorem decodeWord_of_opN_addReg (hT : opT op = 0x8#4) (hN : opN op = 0x4#4) :
    decodeWord op = .addReg (opX op) (opY op) := by
  simp [decodeWord, decodeFamily8, hT, hN]

theorem decodeWord_of_opN_subReg (hT : opT op = 0x8#4) (hN : opN op = 0x5#4) :
    decodeWord op = .subReg (opX op) (opY op) := by
  simp [decodeWord, decodeFamily8, hT, hN]

theorem decodeWord_of_opN_subnReg (hT : opT op = 0x8#4) (hN : opN op = 0x7#4) :
    decodeWord op = .subnReg (opX op) (opY op) := by
  simp [decodeWord, decodeFamily8, hT, hN]

end Sys2Proof

namespace Sys2Proof.Machine

/-! ### The write of a flag and a result -/

/-- What an instruction answers that writes a flag and then a result: the result in `V[x]`, the flag in `VF` unless the
result has overwritten it, all else as before (42_alu.md R100). -/
theorem exec_of_setFlagThenReg {i : Instr} {s : State} {flag : Bool} {x : RegNum} {result : Byte} {n f : Nat}
    (hexec : exec i s = .next (s.setFlagThenReg flag x result)) (hresult : result.toNat = n) (hflag : flag.toNat = f) :
    ∃ t, exec i s = .next t ∧ t.view (.v x) = n ∧ (x ≠ 15 → t.view (.v 15) = f) ∧
      KeepsAllBut (fun p => p = .v x ∨ p = .v 15) s t := by
  refine ⟨_, hexec, ?_, fun hx => ?_, s.setFlagThenReg_keeps _ _ _⟩
  · simp [State.reg_setFlagThenReg, hresult]
  · simp [State.reg_setFlagThenReg, hx.symm, toNat_flagByte, hflag]

/-! ### The values written -/

theorem toNat_carryOut (vx vy : Byte) : (carryOut vx vy).toNat = if 255 < vx.toNat + vy.toNat then 1 else 0 := by
  rw [carryOut_eq, Bool.toNat, Bool.cond_decide]

theorem toNat_strictlyGreater (minuend subtrahend : Byte) :
    (strictlyGreater minuend subtrahend).toNat = if subtrahend.toNat < minuend.toNat then 1 else 0 := by
  rw [strictlyGreater, Bool.toNat, Bool.cond_decide]

/-- The wrapped difference, the borrow added before the subtraction. -/
theorem toNat_byteDifference (minuend subtrahend : Byte) :
    (minuend - subtrahend).toNat = (256 + minuend.toNat - subtrahend.toNat) % 256 := by
  bv_omega

end Sys2Proof.Machine

namespace Sys2Proof

open Sys2Proof.Machine

/-- Settles O40: the write of a flag and a result, with the carry and the low byte of the 9-bit sum. -/
theorem addWithCarry : Obligations.AddWithCarry := by
  unfold Obligations.AddWithCarry
  intro s x y
  refine ⟨fun op hop => ?_, exec_of_setFlagThenReg rfl (toNat_sumLow _ _) (toNat_carryOut _ _)⟩
  obtain ⟨hT, hX, hY, hN⟩ := fields_of_toNat_family8 (n := 0x4#4) hop
  rw [decodeWord_of_opN_addReg hT hN, hX, hY]

/-- Settles O41: the same write, with the comparison and the wrapped difference; the two orders exchange the operands. -/
theorem subtractBothOrders : Obligations.SubtractBothOrders := by
  unfold Obligations.SubtractBothOrders
  intro s x y
  refine ⟨fun op hop => ?_, fun op hop => ?_,
    exec_of_setFlagThenReg rfl (toNat_byteDifference _ _) (toNat_strictlyGreater _ _),
    exec_of_setFlagThenReg rfl (toNat_byteDifference _ _) (toNat_strictlyGreater _ _)⟩
  · obtain ⟨hT, hX, hY, hN⟩ := fields_of_toNat_family8 (n := 0x5#4) hop
    rw [decodeWord_of_opN_subReg hT hN, hX, hY]
  · obtain ⟨hT, hX, hY, hN⟩ := fields_of_toNat_family8 (n := 0x7#4) hop
    rw [decodeWord_of_opN_subnReg hT hN, hX, hY]

end Sys2Proof

/-! The memory accesses through `I` (43_index_memory.md R123 to R126): their opcodes in family F, what a block access
leaves in memory and registers, and the fault of a window beyond the memory. -/

namespace Sys2Proof

variable {op : Word} {x : RegNum}

/-! ### The slots of family F (30_encoding.md R56) -/

theorem fields_of_toNat_familyF {k : Byte} (hop : op.toNat = 0xF000 + k.toNat + 256 * x.val) :
    opT op = 0xF#4 ∧ opX op = x ∧ opKk op = k := by
  have hfamily : (0xF#4).toNat = 15 := rfl
  have hform : op.toNat = 4096 * (0xF#4).toNat + 256 * x.val + k.toNat := by
    omega
  exact fields_of_toNat_formatXK hform

theorem decodeWord_of_toNat_ldBVx (hop : op.toNat = 0xF033 + 256 * x.val) : decodeWord op = .ldBVx x := by
  obtain ⟨hT, hX, hKk⟩ := fields_of_toNat_familyF (k := 0x33#8) hop
  simp [decodeWord, decodeFamilyF, hT, hX, hKk]

theorem decodeWord_of_toNat_ldMemVx (hop : op.toNat = 0xF055 + 256 * x.val) : decodeWord op = .ldMemVx x := by
  obtain ⟨hT, hX, hKk⟩ := fields_of_toNat_familyF (k := 0x55#8) hop
  simp [decodeWord, decodeFamilyF, hT, hX, hKk]

theorem decodeWord_of_toNat_ldVxMem (hop : op.toNat = 0xF065 + 256 * x.val) : decodeWord op = .ldVxMem x := by
  obtain ⟨hT, hX, hKk⟩ := fields_of_toNat_familyF (k := 0x65#8) hop
  simp [decodeWord, decodeFamilyF, hT, hX, hKk]

end Sys2Proof

namespace Sys2Proof.Machine

variable (s : State) {x j : RegNum}

/-! ### Blocks -/

/-- Inside the window of a block write each byte is the one written there. -/
theorem Memory.byteAt_putBytes_inside (m : Memory) (a : Nat) {n : Nat} {bs : List Byte} (hn : n < bs.length) :
    (m.putBytes a bs).byteAt (a + n) = bs[n] := by
  have hin : a ≤ a + n ∧ a + n - a < bs.length := by omega
  rw [Memory.byteAt_putBytes, dif_pos hin]
  simp

theorem toNat_getElem_bcdDigits (vx : Byte) :
    (bcdDigits vx)[0].toNat = vx.toNat / 100 ∧ (bcdDigits vx)[1].toNat = vx.toNat / 10 % 10 ∧
      (bcdDigits vx)[2].toNat = vx.toNat % 10 := by
  have hvx := vx.isLt
  refine ⟨Nat.mod_eq_of_lt ?_, Nat.mod_eq_of_lt ?_, Nat.mod_eq_of_lt ?_⟩ <;> omega

/-- A stored register block holds `V[j]` at offset `j` (43_index_memory.md R124). -/
theorem State.byteAt_putBytes_regBlock (a : Nat) (hj : j ≤ x) :
    (s.mem.putBytes a (s.regBlock x)).byteAt (a + j.val) = s.reg j := by
  have hlt : j.val < (s.regBlock x).length := by
    rw [State.length_regBlock]
    exact Nat.lt_succ_of_le hj
  rw [Memory.byteAt_putBytes_inside _ _ hlt, State.getElem_regBlock]

/-- A loaded register block holds the byte at offset `j` in `V[j]` (43_index_memory.md R125). -/
theorem State.reg_loadRegs_bytesFrom (m : Memory) (a : Nat) (hj : j ≤ x) :
    (s.loadRegs (m.bytesFrom a (x.val + 1))).reg j = m.byteAt (a + j.val) := by
  have hlt : j.val < (m.bytesFrom a (x.val + 1)).length := by
    rw [Memory.length_bytesFrom]
    exact Nat.lt_succ_of_le hj
  rw [State.reg_loadRegs, dif_pos hlt, Memory.getElem_bytesFrom]

/-- A fetch where a register block was stored sees two neighbouring registers, the lower one as the high byte
(20_memory.md R35). -/
theorem State.fetch_of_regBlock {t : State} {a : Nat} (hmem : t.mem = s.mem.putBytes a (s.regBlock x))
    (hpc : t.pc.toNat = a + j.val) (hj : j < x) (hrange : a + (x.val + 1) ≤ 4096) :
    ∃ op, t.fetch = .ok op ∧ op.toNat = 256 * (s.reg j).toNat + (s.reg (j + 1)).toNat := by
  have hnext : (j + 1).val = j.val + 1 := Fin.val_add_one_of_lt (hj.trans_le x.le_last)
  have hhi : t.mem.byteAt t.pc.toNat = s.reg j := by
    rw [hmem, hpc, s.byteAt_putBytes_regBlock a hj.le]
  have hlo : t.mem.byteAt (t.pc.toNat + 1) = s.reg (j + 1) := by
    rw [hmem, hpc, Nat.add_assoc, ← hnext, s.byteAt_putBytes_regBlock a (Fin.add_one_le_of_lt hj)]
  have hlt : j.val < x.val := hj
  refine ⟨_, State.fetch_ok (by omega), ?_⟩
  rw [toNat_beWord, hhi, hlo]

/-! ### What an access through `I` answers (43_index_memory.md R126) -/

/-- A block write in range leaves its bytes in memory. -/
theorem State.settle_writeBlock_ok {bs : List Byte} (hrange : s.i.toNat + bs.length ≤ 4096) :
    s.settle ((s.mem.writeBlock s.i bs).map s.setMem) = .next (s.setMem (s.mem.putBytes s.i.toNat bs)) := by
  rw [Memory.writeBlock_ok _ hrange]
  rfl

/-- A block read in range hands its bytes to the instruction. -/
theorem State.settle_readBlock_ok {len : Nat} (load : List Byte → State) (hrange : s.i.toNat + len ≤ 4096) :
    s.settle ((s.mem.readBlock s.i len).map load) = .next (load (s.mem.bytesFrom s.i.toNat len)) := by
  rw [Memory.readBlock_ok _ hrange]
  rfl

/-- A block write beyond the memory is recorded, with nothing written (60_exceptions.md R161, R165). -/
theorem State.settle_writeBlock_raised {bs : List Byte} (hover : 4096 < s.i.toNat + bs.length)
    (hlen : bs.length < 32) :
    ∃ t, s.settle ((s.mem.writeBlock s.i bs).map s.setMem) = .next t ∧ Raised 1 s.i.toNat bs.length s t := by
  rw [Memory.writeBlock_error _ hover]
  exact ⟨_, rfl, s.raise_outOfRange s.i hlen⟩

/-- A block read beyond the memory is recorded, and the instruction never sees a byte. -/
theorem State.settle_readBlock_raised {len : Nat} (load : List Byte → State) (hover : 4096 < s.i.toNat + len)
    (hlen : len < 32) :
    ∃ t, s.settle ((s.mem.readBlock s.i len).map load) = .next t ∧ Raised 1 s.i.toNat len s t := by
  rw [Memory.readBlock_error _ hover]
  exact ⟨_, rfl, s.raise_outOfRange s.i hlen⟩

end Sys2Proof.Machine

namespace Sys2Proof

open Sys2Proof.Machine

/-- Settles O45: one block write of the three digits, read back digit by digit inside its window. -/
theorem bcdStore : Obligations.BcdStore := by
  unfold Obligations.BcdStore
  intro s x
  refine ⟨fun op => decodeWord_of_toNat_ldBVx, fun hrange => ?_,
    fun hover => s.settle_writeBlock_raised (bs := bcdDigits (s.reg x)) hover (by simp)⟩
  have digitAt {n : Nat} (hn : n < (bcdDigits (s.reg x)).length) :=
    congrArg BitVec.toNat (s.mem.byteAt_putBytes_inside s.i.toNat hn)
  obtain ⟨hundreds, tens, ones⟩ := toNat_getElem_bcdDigits (s.reg x)
  exact ⟨_, s.settle_writeBlock_ok (bs := bcdDigits (s.reg x)) hrange, (digitAt (n := 0) (by simp)).trans hundreds,
    (digitAt (n := 1) (by simp)).trans tens, (digitAt (n := 2) (by simp)).trans ones,
    s.putBytes_keeps s.i (bcdDigits _)⟩

/-- Settles O46: one block write of `V0..Vx`, which a fetch inside its window reads as words. -/
theorem blockStore : Obligations.BlockStore := by
  unfold Obligations.BlockStore
  intro s x
  have hlength := s.length_regBlock x
  refine ⟨fun op => decodeWord_of_toNat_ldMemVx, fun hrange => ?_, fun hover => ?_⟩
  · refine ⟨_, s.settle_writeBlock_ok (hlength ▸ hrange), fun j hj => ?_, fun j w hj hw => ?_,
      hlength ▸ s.putBytes_keeps s.i _⟩
    · exact congrArg BitVec.toNat (s.byteAt_putBytes_regBlock s.i.toNat hj)
    · exact s.fetch_of_regBlock rfl hw hj hrange
  · rw [← hlength] at hover ⊢
    exact s.settle_writeBlock_raised hover (by omega)

/-- Settles O47: one block read, written to the registers up to `V[x]` once it has been checked. -/
theorem blockLoad : Obligations.BlockLoad := by
  unfold Obligations.BlockLoad
  intro s x
  refine ⟨fun op => decodeWord_of_toNat_ldVxMem, fun hrange => ?_,
    fun hover => s.settle_readBlock_raised (len := x.val + 1) s.loadRegs hover (by omega)⟩
  refine ⟨_, s.settle_readBlock_ok s.loadRegs hrange, fun j hj => ?_, ?_⟩
  · exact congrArg BitVec.toNat (s.reg_loadRegs_bytesFrom s.mem s.i.toNat hj)
  · refine (s.loadRegs_keeps _).weaken fun p ⟨j, hp, hj⟩ => ⟨j, hp, ?_⟩
    rw [Memory.length_bytesFrom] at hj
    exact Nat.le_of_lt_succ hj

end Sys2Proof

/-! The framebuffer's two instructions (44_display.md R131, R132): their opcodes, and the state a draw leaves. -/

namespace Sys2Proof

variable {op : Word}

/-! ### Their slots (30_encoding.md R56) -/

/-- `CLS` is keyed by the family and the low nibble; the two nibbles between are not read. -/
theorem decodeWord_of_toNat_cls {m : Fin 256} (hop : op.toNat = 16 * m.val) : decodeWord op = .cls := by
  have hfamily : opT op = 0x0#4 := (opT_eq_iff op _).2 (show _ = 0 by omega)
  have hlow : opN op = 0x0#4 := (opN_eq_iff op _).2 (show _ = 0 by omega)
  simp [decodeWord, decodeFamily0, hfamily, hlow]

theorem decodeWord_of_opT_drw (hT : opT op = 0xD#4) : decodeWord op = .drw (opX op) (opY op) (opN op) := by
  simp [decodeWord, hT]

theorem decodeWord_of_toNat_drw {x y : RegNum} {n : Nibble}
    (hop : op.toNat = 0xD000 + 256 * x.val + 16 * y.val + n.toNat) : decodeWord op = .drw x y n := by
  obtain ⟨hT, hX, hY⟩ := fields_of_toNat_formatXYN (t := 0xD#4) (m := n.toFin) hop
  have hN : opN op = n := (opN_eq_iff op n).2 (by omega)
  rw [decodeWord_of_opT_drw hT, hX, hY, hN]

end Sys2Proof

namespace Sys2Proof.Machine

/-- A block read holds the byte at offset `k` at its position `k` (20_memory.md R36). -/
theorem Memory.getD_bytesFrom (m : Memory) (a : Nat) {k len : Nat} (hk : k < len) :
    (m.bytesFrom a len).getD k 0 = m.byteAt (a + k) := by
  have hlt : k < (m.bytesFrom a len).length := by rwa [Memory.length_bytesFrom]
  rw [List.getD_eq_getElem _ _ hlt, Memory.getElem_bytesFrom]

variable (s : State) (x y : RegNum)

/-! ### The state after a draw -/

/-- `s` once `rows` are drawn at column `V[x]` and row `V[y]`: the pixels, then the collision flag in `VF`. -/
def State.afterDraw (rows : List Byte) : State :=
  let d := drawSprite s.fb (s.reg x) (s.reg y) rows
  (s.setFb d.fb).setReg vf (flagByte d.coll)

/-- `DRW` with its block in range draws the bytes at `I`. -/
theorem exec_drw_ok {n : Nibble} (hrange : s.i.toNat + n.toNat ≤ 4096) :
    exec (.drw x y n) s = .next (s.afterDraw x y (s.mem.bytesFrom s.i.toNat n.toNat)) :=
  s.settle_readBlock_ok (s.afterDraw x y) hrange

/-- `DRW` with its block beyond the memory records the fault and draws nothing. -/
theorem exec_drw_raised {n : Nibble} (hover : 4096 < s.i.toNat + n.toNat) :
    ∃ t, exec (.drw x y n) s = .next t ∧ Raised 1 s.i.toNat n.toNat s t :=
  s.settle_readBlock_raised (s.afterDraw x y) hover (by omega)

/-- A draw writes the pixels and `VF` alone. -/
theorem State.afterDraw_keeps (rows : List Byte) :
    KeepsAllBut (fun p => p.ofScreen ∨ p = .v 15) s (s.afterDraw x y rows) :=
  ((s.setFb_keeps _).weaken fun _ h => .inl h).trans ((State.setReg_keeps _ vf _).weaken fun _ h => .inr h)

theorem State.view_vf_afterDraw (rows : List Byte) :
    (s.afterDraw x y rows).view (.v 15) = (drawSprite s.fb (s.reg x) (s.reg y) rows).coll.toNat := by
  rw [State.view_v, ← toNat_flagByte]
  exact congrArg BitVec.toNat (State.reg_setReg_same _ vf _)

variable {s x y} {rows : List Byte} (hrows : rows.length ≤ 32)
include hrows

theorem State.pixel_afterDraw (r : Fin 32) (c : Fin 64) :
    (s.afterDraw x y rows).fb.pixel r c = (s.fb.pixel r c ^^ spriteCovers (s.reg x) (s.reg y) rows r c) :=
  drawSprite_pixel s.fb (s.reg x) (s.reg y) rows hrows r c

/-- `VF` is 1 after a draw over a pixel that was on. -/
theorem State.vf_afterDraw_of_collision
    (hhit : ∃ r c, spriteCovers (s.reg x) (s.reg y) rows r c = true ∧ s.fb.pixel r c = true) :
    (s.afterDraw x y rows).view (.v 15) = 1 := by
  have hcoll := (drawSprite_coll s.fb (s.reg x) (s.reg y) rows hrows).2 hhit
  rw [State.view_vf_afterDraw, hcoll]
  rfl

/-- `VF` is 0 after a draw over pixels that were all off. -/
theorem State.vf_afterDraw_of_no_collision
    (hmiss : ∀ r c, spriteCovers (s.reg x) (s.reg y) rows r c = true → s.fb.pixel r c = false) :
    (s.afterDraw x y rows).view (.v 15) = 0 := by
  have hcoll : (drawSprite s.fb (s.reg x) (s.reg y) rows).coll = false := by
    rw [← Bool.not_eq_true, drawSprite_coll _ _ _ _ hrows]
    rintro ⟨r, c, hcovers, hon⟩
    simp [hmiss r c hcovers] at hon
  rw [State.view_vf_afterDraw, hcoll]
  rfl

end Sys2Proof.Machine

namespace Sys2Proof

open Sys2Proof.Machine

/-- Settles O53: one block read, and the state a draw of its at most 15 rows leaves; or the read's fault. -/
theorem drawSprite : Obligations.DrawSprite := by
  unfold Obligations.DrawSprite
  intro s x y n
  refine ⟨fun _ => decodeWord_of_toNat_drw, fun hrange => ?_, exec_drw_raised s x y⟩
  have hlength := s.mem.length_bytesFrom n.toNat s.i.toNat
  have hrows : (s.mem.bytesFrom s.i.toNat n.toNat).length ≤ 32 := by omega
  exact ⟨_, _, exec_drw_ok s x y hrange, hlength,
    fun k hk => congrArg BitVec.toNat (s.mem.getD_bytesFrom s.i.toNat hk), State.pixel_afterDraw hrows,
    State.vf_afterDraw_of_collision hrows, State.vf_afterDraw_of_no_collision hrows, s.afterDraw_keeps x y _⟩

/-- Settles O52: the dispatch writes the framebuffer alone, and the cleared one has every pixel off. -/
theorem clearScreen : Obligations.ClearScreen := by
  unfold Obligations.ClearScreen
  exact ⟨fun _ _ => decodeWord_of_toNat_cls, fun s =>
    ⟨_, rfl, fun r c => congrArg Bool.toNat (Framebuffer.pixel_clear r c), s.setFb_keeps _⟩⟩

end Sys2Proof

/-! The stack's two instructions (41_flow.md R91, R93): what each answers when its one stack operation succeeds, and when
it fails (60_exceptions.md R164). -/

namespace Sys2Proof.Machine

variable {s u : State} {nnn : Addr12} {f : CoreFault} {w : Word}

theorem exec_call_of_push_ok (hpush : s.push s.pc = .ok u) : exec (.call nnn) s = .next (u.setPc (zextAddr nnn)) := by
  rw [exec, execCall, hpush]
  rfl

theorem exec_call_of_push_error (hpush : s.push s.pc = .error f) : exec (.call nnn) s = .next (s.raise f) := by
  rw [exec, execCall, hpush]
  rfl

theorem exec_ret_of_pop_ok (hpop : s.pop = .ok (w, u)) : exec .ret s = .next (u.setPc w) := by
  rw [exec, execRet, hpop]
  rfl

theorem exec_ret_of_pop_error (hpop : s.pop = .error f) : exec .ret s = .next (s.raise f) := by
  rw [exec, execRet, hpop]
  rfl

end Sys2Proof.Machine

namespace Sys2Proof

open Sys2Proof.Machine

/-- Settles O34: the depth decides the push and the pop; a failed one is raised in the state before, and one that
succeeds keeps the fault bit, as the write of `PC` after it does. -/
theorem stackFaults : Obligations.StackFaults := by
  unfold Obligations.StackFaults
  intro s
  refine ⟨fun nnn hfull => ?_, fun nnn t hroom hexec => ?_, fun hempty => ?_, fun t hentry hexec => ?_⟩
  · exact ⟨_, exec_call_of_push_error (s.push_full s.pc hfull), s.raise_raised .stackOverflow⟩
  · obtain ⟨u, hpush⟩ : ∃ u, s.push s.pc = .ok u := ⟨_, s.push_ok s.pc hroom⟩
    cases hexec.symm.trans (exec_call_of_push_ok hpush)
    simp [State.push_faulted hpush]
  · exact ⟨_, exec_ret_of_pop_error (s.pop_empty hempty), s.raise_raised .stackUnderflow⟩
  · obtain ⟨⟨w, u⟩, hpop⟩ : ∃ p, s.pop = .ok p := ⟨_, s.pop_ok hentry⟩
    cases hexec.symm.trans (exec_ret_of_pop_ok hpop)
    have hkept : u.faulted = s.faulted := State.pop_faulted hpop
    simp [hkept]

end Sys2Proof

/-! Decoding and encoding (30_encoding.md): the unmapped slots, the fields of a word put back together, and the rows of
the opcode table as tests of the dispatch keys. -/

namespace Sys2Proof

variable {op : Word}

/-! ### The unmapped slots of the second levels (30_encoding.md R58) -/

theorem decodeFamily0_of_unmapped (h : mapped0 (opN op) = false) : decodeFamily0 op = .sys (opNnn op) := by
  apply decodeFamily0_cases op (· = .sys (opNnn op))
  case sys => exact fun _ => rfl
  all_goals
    intro hN
    rw [hN] at h
    contradiction

theorem decodeFamily8_of_unmapped (h : mapped8 (opN op) = false) : decodeFamily8 op = .nop8 (opNnn op) := by
  apply decodeFamily8_cases op (· = .nop8 (opNnn op))
  case nop8 => exact fun _ => rfl
  all_goals
    intro hN
    rw [hN] at h
    contradiction

theorem decodeFamilyE_of_unmapped (h : mappedE (opN op) = false) : decodeFamilyE op = .nopE (opNnn op) := by
  apply decodeFamilyE_cases op (· = .nopE (opNnn op))
  case nopE => exact fun _ => rfl
  all_goals
    intro hN
    rw [hN] at h
    contradiction

theorem decodeFamilyF_of_unmapped (h : mappedF (opKk op) = false) : decodeFamilyF op = .nopF (opNnn op) := by
  apply decodeFamilyF_cases op (· = .nopF (opNnn op))
  case nopF => exact fun _ => rfl
  all_goals
    intro hK
    rw [hK] at h
    contradiction

/-! ### Which no-op rows are well-formed (30_encoding.md R58) -/

theorem sys_wellFormed_iff (nnn : Addr12) : (Instr.sys nnn).WellFormed ↔ mapped0 (keyNibble nnn) = false := by
  simp [Instr.WellFormed, Instr.wellFormed]

theorem nop8_wellFormed_iff (rest : Addr12) : (Instr.nop8 rest).WellFormed ↔ mapped8 (keyNibble rest) = false := by
  simp [Instr.WellFormed, Instr.wellFormed]

theorem nopE_wellFormed_iff (rest : Addr12) : (Instr.nopE rest).WellFormed ↔ mappedE (keyNibble rest) = false := by
  simp [Instr.WellFormed, Instr.wellFormed]

theorem nopF_wellFormed_iff (rest : Addr12) : (Instr.nopF rest).WellFormed ↔ mappedF (keyByte rest) = false := by
  simp [Instr.WellFormed, Instr.wellFormed]

/-- Settles O2: each format's fields read back, and so do the keys of the second level; a well-formed no-op row holds an
unmapped key. -/
theorem decodeOfEncode : Obligations.DecodeOfEncode := by
  unfold Obligations.DecodeOfEncode
  intro i hwf
  cases i with
  | sys nnn =>
    have hkey : mapped0 (opN (formatA 0x0#4 nnn)) = false := by
      rwa [opN_eq_keyNibble, opNnn_formatA, ← sys_wellFormed_iff]
    simp [encode, decodeWord, decodeFamily0_of_unmapped hkey]
  | nop8 rest =>
    have hkey : mapped8 (opN (formatA 0x8#4 rest)) = false := by
      rwa [opN_eq_keyNibble, opNnn_formatA, ← nop8_wellFormed_iff]
    simp [encode, decodeWord, decodeFamily8_of_unmapped hkey]
  | nopE rest =>
    have hkey : mappedE (opN (formatA 0xE#4 rest)) = false := by
      rwa [opN_eq_keyNibble, opNnn_formatA, ← nopE_wellFormed_iff]
    simp [encode, decodeWord, decodeFamilyE_of_unmapped hkey]
  | nopF rest =>
    have hkey : mappedF (opKk (formatA 0xF#4 rest)) = false := by
      rwa [opKk_eq_keyByte, opNnn_formatA, ← nopF_wellFormed_iff]
    simp [encode, decodeWord, decodeFamilyF_of_unmapped hkey]
  | cls | ret => rfl
  | skp _ | sknp _ => simp [encode, decodeWord, decodeFamilyE, opN_formatXK]
  | ldReg _ _ | orReg _ _ | andReg _ _ | xorReg _ _ | addReg _ _ | subReg _ _ | shr _ _ | subnReg _ _ | shl _ _ =>
    simp [encode, decodeWord, decodeFamily8]
  | ldVxDT _ | ldVxK _ | ldDTVx _ | ldSTVx _ | addIVx _ | ldFVx _ | ldBVx _ | ldMemVx _ | ldVxMem _ =>
    simp [encode, decodeWord, decodeFamilyF]
  | jp _ | call _ | seImm _ _ | sneImm _ _ | seReg _ _ | ldImm _ _ | addImm _ _ | sneReg _ _ | ldI _ | jpV0 _ | rnd _ _
  | drw _ _ _ => simp [encode, decodeWord]

/-! ### Well-formedness of what a second level decodes to -/

theorem decodeFamily0_wellFormed (op : Word) : (decodeFamily0 op).WellFormed := by
  apply decodeFamily0_cases op (·.WellFormed)
  case sys => exact fun h => (sys_wellFormed_iff _).2 (opN_eq_keyNibble op ▸ h)
  all_goals exact fun _ => rfl

theorem decodeFamily8_wellFormed (op : Word) : (decodeFamily8 op).WellFormed := by
  apply decodeFamily8_cases op (·.WellFormed)
  case nop8 => exact fun h => (nop8_wellFormed_iff _).2 (opN_eq_keyNibble op ▸ h)
  all_goals exact fun _ => rfl

theorem decodeFamilyE_wellFormed (op : Word) : (decodeFamilyE op).WellFormed := by
  apply decodeFamilyE_cases op (·.WellFormed)
  case nopE => exact fun h => (nopE_wellFormed_iff _).2 (opN_eq_keyNibble op ▸ h)
  all_goals exact fun _ => rfl

theorem decodeFamilyF_wellFormed (op : Word) : (decodeFamilyF op).WellFormed := by
  apply decodeFamilyF_cases op (·.WellFormed)
  case nopF => exact fun h => (nopF_wellFormed_iff _).2 (opKk_eq_keyByte op ▸ h)
  all_goals exact fun _ => rfl

/-- Settles O3: only a no-op row can be ill-formed, and a second level answers one for an unmapped key alone. -/
theorem decodeIsWellFormed : Obligations.DecodeIsWellFormed := by
  unfold Obligations.DecodeIsWellFormed
  intro op
  apply decodeWord_cases op (·.WellFormed)
  case f0 => exact fun _ => decodeFamily0_wellFormed op
  case f8 => exact fun _ => decodeFamily8_wellFormed op
  case fE => exact fun _ => decodeFamilyE_wellFormed op
  case fF => exact fun _ => decodeFamilyF_wellFormed op
  all_goals exact fun _ => rfl

/-! ### A word from its fields (30_encoding.md R51, R52) -/

variable {t : Nibble} {a b : Word}

/-- The family and the low twelve bits make up the word. -/
theorem word_eq_of_opNnn (hT : opT a = opT b) (hNnn : opNnn a = opNnn b) : a = b := by
  have ht := congrArg BitVec.toNat hT
  have hnnn := congrArg BitVec.toNat hNnn
  rw [toNat_opT, toNat_opT] at ht
  rw [toNat_opNnn, toNat_opNnn] at hnnn
  exact BitVec.eq_of_toNat_eq (by omega)

theorem word_eq_of_opKk (hT : opT a = opT b) (hX : opX a = opX b) (hKk : opKk a = opKk b) : a = b := by
  have hx := congrArg Fin.val hX
  have hkk := congrArg BitVec.toNat hKk
  rw [val_opX, val_opX] at hx
  rw [toNat_opKk, toNat_opKk] at hkk
  refine word_eq_of_opNnn hT (BitVec.eq_of_toNat_eq ?_)
  rw [toNat_opNnn, toNat_opNnn]
  omega

theorem word_eq_of_opN (hT : opT a = opT b) (hX : opX a = opX b) (hY : opY a = opY b) (hN : opN a = opN b) : a = b := by
  have hy := congrArg Fin.val hY
  have hn := congrArg BitVec.toNat hN
  rw [val_opY, val_opY] at hy
  rw [toNat_opN, toNat_opN] at hn
  refine word_eq_of_opKk hT hX (BitVec.eq_of_toNat_eq ?_)
  rw [toNat_opKk, toNat_opKk]
  omega

theorem formatA_fields (hT : opT op = t) : formatA t (opNnn op) = op := word_eq_of_opNnn (by simp [hT]) (by simp)

theorem formatXK_fields (hT : opT op = t) : formatXK t (opX op) (opKk op) = op :=
  word_eq_of_opKk (by simp [hT]) (by simp) (by simp)

theorem formatXYN_fields (hT : opT op = t) : formatXYN t (opX op) (opY op) (opN op) = op :=
  word_eq_of_opN (by simp [hT]) (by simp) (by simp) (by simp)

theorem encode_decodeFamily8 (hT : opT op = 0x8#4) : encode (decodeFamily8 op) = op := by
  apply decodeFamily8_cases op (encode · = op)
  case nop8 => exact fun _ => formatA_fields hT
  all_goals
    intro hN
    rw [encode, ← hN]
    exact formatXYN_fields hT

theorem encode_decodeFamilyF (hT : opT op = 0xF#4) : encode (decodeFamilyF op) = op := by
  apply decodeFamilyF_cases op (encode · = op)
  case nopF => exact fun _ => formatA_fields hT
  all_goals
    intro hKk
    rw [encode, ← hKk]
    exact formatXK_fields hT

/-- Settles O4: outside the four families the term carries every field its format has, and a mapped key is the one the
encoder writes. -/
theorem encodeOfDecode : Obligations.EncodeOfDecode := by
  unfold Obligations.EncodeOfDecode
  intro op hout
  have excluded (t : Nibble) (ht : t.toNat ∈ [0x0, 0x5, 0x9, 0xE]) (hT : opT op = t) : False :=
    hout _ ht ((opT_eq_iff op t).1 hT)
  apply decodeWord_cases op (encode · = op)
  case f0 => exact fun hT => (excluded 0x0#4 (by decide) hT).elim
  case seReg => exact fun hT => (excluded 0x5#4 (by decide) hT).elim
  case sneReg => exact fun hT => (excluded 0x9#4 (by decide) hT).elim
  case fE => exact fun hT => (excluded 0xE#4 (by decide) hT).elim
  case f8 => exact encode_decodeFamily8
  case fF => exact encode_decodeFamilyF
  case drw => exact formatXYN_fields
  case jp | call | ldI | jpV0 => exact formatA_fields
  case seImm | sneImm | ldImm | addImm | rnd => exact formatXK_fields

/-! ### The unmapped opcodes as numbers (30_encoding.md R58) -/

theorem mapped0_eq_false_iff (op : Word) : mapped0 (opN op) = false ↔ op.toNat % 16 ∉ [0x0, 0xE] := by
  simp [mapped0, opN_eq_iff]

theorem mapped8_eq_false_iff (op : Word) :
    mapped8 (opN op) = false ↔ op.toNat % 16 ∈ [0x8, 0x9, 0xA, 0xB, 0xC, 0xD, 0xF] := by
  simp [mapped8, opN_eq_iff, toNat_opN]
  omega

theorem mappedE_eq_false_iff (op : Word) : mappedE (opN op) = false ↔ op.toNat % 16 ∉ [0x1, 0xE] := by
  simp [mappedE, opN_eq_iff]

theorem mappedF_eq_false_iff (op : Word) :
    mappedF (opKk op) = false ↔ op.toNat % 256 ∉ [0x07, 0x0A, 0x15, 0x18, 0x1E, 0x29, 0x33, 0x55, 0x65] := by
  simp [mappedF, opKk_eq_iff, and_assoc]

/-- The no-op rows are what the unmapped keys of their families decode to, and nothing else is. -/
def NoOpsAreUnmapped (op : Word) (i : Instr) : Prop :=
  ((∃ nnn, i = .sys nnn) ↔ opT op = 0x0#4 ∧ mapped0 (opN op) = false) ∧
    ((∃ r, i = .nop8 r) ↔ opT op = 0x8#4 ∧ mapped8 (opN op) = false) ∧
    ((∃ r, i = .nopE r) ↔ opT op = 0xE#4 ∧ mappedE (opN op) = false) ∧
    ((∃ r, i = .nopF r) ↔ opT op = 0xF#4 ∧ mappedF (opKk op) = false)

theorem noOpsAreUnmapped_decodeWord (op : Word) : NoOpsAreUnmapped op (decodeWord op) := by
  apply decodeWord_cases op (NoOpsAreUnmapped op)
  case f0 =>
    intro hT
    apply decodeFamily0_cases op (NoOpsAreUnmapped op)
    case sys => exact fun hkey => by simp [NoOpsAreUnmapped, hT, hkey]
    all_goals exact fun hkey => by simp [NoOpsAreUnmapped, hT, hkey, mapped0]
  case f8 =>
    intro hT
    apply decodeFamily8_cases op (NoOpsAreUnmapped op)
    case nop8 => exact fun hkey => by simp [NoOpsAreUnmapped, hT, hkey]
    all_goals exact fun hkey => by simp [NoOpsAreUnmapped, hT, hkey, mapped8]
  case fE =>
    intro hT
    apply decodeFamilyE_cases op (NoOpsAreUnmapped op)
    case nopE => exact fun hkey => by simp [NoOpsAreUnmapped, hT, hkey]
    all_goals exact fun hkey => by simp [NoOpsAreUnmapped, hT, hkey, mappedE]
  case fF =>
    intro hT
    apply decodeFamilyF_cases op (NoOpsAreUnmapped op)
    case nopF => exact fun hkey => by simp [NoOpsAreUnmapped, hT, hkey]
    all_goals exact fun hkey => by simp [NoOpsAreUnmapped, hT, hkey, mappedF]
  all_goals
    intro hT
    simp [NoOpsAreUnmapped, hT]

/-- Settles O6: the no-op rows by family and key, each test of a key read as one of the opcode's number. -/
theorem unmappedOpcodes : Obligations.UnmappedOpcodes := by
  unfold Obligations.UnmappedOpcodes
  intro op
  rw [← mapped0_eq_false_iff, ← mapped8_eq_false_iff, ← mappedE_eq_false_iff, ← mappedF_eq_false_iff]
  have hnoops := noOpsAreUnmapped_decodeWord op
  simp only [NoOpsAreUnmapped, opT_eq_iff] at hnoops
  exact hnoops

/-- Settles O1: the decoder evaluated on each word. -/
theorem sampleWordsDecode : Obligations.SampleWordsDecode := by
  unfold Obligations.SampleWordsDecode
  decide

/-! ### The rows of the table as tests of the keys (30_encoding.md R55, R60) -/

theorem and_family (op : Word) : op &&& 0xF000#16 = formatA (opT op) 0 :=
  calc op &&& 0xF000#16 = formatA (opT op) (opNnn op) &&& 0xF000#16 := by rw [formatA_fields rfl]
    _ = (opT op).setWidth 16 <<< 12 := Laws.OpcodeRow.formatA_family _ _
    _ = formatA (opT op) 0 := by simp [formatA]

theorem and_nibble (op : Word) : op &&& 0xF00F#16 = formatXYN (opT op) 0 0 (opN op) :=
  calc op &&& 0xF00F#16 = formatXYN (opT op) (opX op) (opY op) (opN op) &&& 0xF00F#16 := by rw [formatXYN_fields rfl]
    _ = (opT op).setWidth 16 <<< 12 ||| (opN op).setWidth 16 := Laws.OpcodeRow.formatXYN_nibble _ _ _ _
    _ = formatXYN (opT op) 0 0 (opN op) := by simp [formatXYN, indexNibble]

theorem and_byte (op : Word) : op &&& 0xF0FF#16 = formatXK (opT op) 0 (opKk op) :=
  calc op &&& 0xF0FF#16 = formatXK (opT op) (opX op) (opKk op) &&& 0xF0FF#16 := by rw [formatXK_fields rfl]
    _ = (opT op).setWidth 16 <<< 12 ||| (opKk op).setWidth 16 := Laws.OpcodeRow.formatXK_byte _ _ _
    _ = formatXK (opT op) 0 (opKk op) := by simp [formatXK, indexNibble]

/-- A row's pattern holds nothing but the keys that its mask reads. -/
def OpcodeRow.Keyed (r : OpcodeRow) : Prop :=
  (r.mask = 0xF000#16 ∧ r.pattern = formatA (opT r.pattern) 0) ∨
    (r.mask = 0xF00F#16 ∧ r.pattern = formatXYN (opT r.pattern) 0 0 (opN r.pattern)) ∨
    (r.mask = 0xF0FF#16 ∧ r.pattern = formatXK (opT r.pattern) 0 (opKk r.pattern))

theorem opcodeRows_keyed : ∀ r ∈ opcodeRows, r.Keyed := by
  unfold OpcodeRow.Keyed
  decide

/-- A row as a test of the keys `t`, `n` and `k`. -/
def keysHit (t n : Nibble) (k : Byte) (r : OpcodeRow) : Bool :=
  opT r.pattern == t && (r.mask == 0xF000#16 || (r.mask == 0xF00F#16 && opN r.pattern == n) ||
    (r.mask == 0xF0FF#16 && opKk r.pattern == k))

theorem rowHits_eq_keysHit {r : OpcodeRow} (hr : r.Keyed) : rowHits op r = keysHit (opT op) (opN op) (opKk op) r := by
  obtain ⟨p, m⟩ := r
  rw [Bool.eq_iff_iff, rowHits, keysHit, beq_iff_eq]
  obtain ⟨rfl, hp⟩ | ⟨rfl, hp⟩ | ⟨rfl, hp⟩ := hr
  all_goals dsimp only at hp ⊢
  · rw [and_family]
    refine ⟨fun e => by simp [← e], fun hkeys => ?_⟩
    have hT : opT p = opT op := by simpa using hkeys
    rw [hp, hT]
  · rw [and_nibble]
    refine ⟨fun e => by simp [← e], fun hkeys => ?_⟩
    obtain ⟨hT, hN⟩ : opT p = opT op ∧ opN p = opN op := by simpa using hkeys
    rw [hp, hT, hN]
  · rw [and_byte]
    refine ⟨fun e => by simp [← e], fun hkeys => ?_⟩
    obtain ⟨hT, hKk⟩ : opT p = opT op ∧ opKk p = opKk op := by simpa using hkeys
    rw [hp, hT, hKk]

/-- The first row that the keys hit. -/
def firstRowOfKeys (t n : Nibble) (k : Byte) : Option Nat := opcodeRows.findIdx? (keysHit t n k)

theorem findIdx?_congr {α : Type} {p q : α → Bool} {l : List α} (h : ∀ a ∈ l, p a = q a) :
    l.findIdx? p = l.findIdx? q := by
  induction l with
  | nil => rfl
  | cons a l ih =>
    rw [List.findIdx?_cons, List.findIdx?_cons, h a List.mem_cons_self, ih fun b hb => h b (List.mem_cons_of_mem a hb)]

theorem firstRow_eq (op : Word) : firstRow op = firstRowOfKeys (opT op) (opN op) (opKk op) :=
  findIdx?_congr fun r hr => rowHits_eq_keysHit (opcodeRows_keyed r hr)

theorem beq_of_unmapped {w : Nat} {mapped : BitVec w → Bool} {n m : BitVec w} (hn : mapped n = false)
    (hm : mapped m = true) : (m == n) = false :=
  beq_eq_false_iff_ne.2 fun e => by simp [e, hn] at hm

/-! The fallback rows: every row of the family before them reads a mapped key. -/

theorem firstRowOfKeys_sys (n : Nibble) (k : Byte) (h : mapped0 n = false) : firstRowOfKeys 0x0#4 n k = some 2 := by
  simp (disch := decide) [firstRowOfKeys, opcodeRows, keysHit, opT, opN, opKk, beq_of_unmapped h, List.findIdx?_cons]

theorem firstRowOfKeys_nop8 (n : Nibble) (k : Byte) (h : mapped8 n = false) : firstRowOfKeys 0x8#4 n k = some 35 := by
  simp (disch := decide) [firstRowOfKeys, opcodeRows, keysHit, opT, opN, opKk, beq_of_unmapped h, List.findIdx?_cons]

theorem firstRowOfKeys_nopE (n : Nibble) (k : Byte) (h : mappedE n = false) : firstRowOfKeys 0xE#4 n k = some 36 := by
  simp (disch := decide) [firstRowOfKeys, opcodeRows, keysHit, opT, opN, opKk, beq_of_unmapped h, List.findIdx?_cons]

theorem firstRowOfKeys_nopF (n : Nibble) (k : Byte) (h : mappedF k = false) : firstRowOfKeys 0xF#4 n k = some 37 := by
  simp (disch := decide) [firstRowOfKeys, opcodeRows, keysHit, opT, opN, opKk, beq_of_unmapped h, List.findIdx?_cons]

/-! The second levels: a mapped key fixes the row. -/

theorem firstRowOfKeys_family0 (op : Word) :
    firstRowOfKeys 0x0#4 (opN op) (opKk op) = some (decodeFamily0 op).row := by
  apply decodeFamily0_cases op (firstRowOfKeys 0x0#4 (opN op) (opKk op) = some ·.row)
  case sys => exact firstRowOfKeys_sys _ _
  all_goals
    intro hN
    rw [hN]
    rfl

theorem firstRowOfKeys_family8 (op : Word) :
    firstRowOfKeys 0x8#4 (opN op) (opKk op) = some (decodeFamily8 op).row := by
  apply decodeFamily8_cases op (firstRowOfKeys 0x8#4 (opN op) (opKk op) = some ·.row)
  case nop8 => exact firstRowOfKeys_nop8 _ _
  all_goals
    intro hN
    rw [hN]
    rfl

theorem firstRowOfKeys_familyE (op : Word) :
    firstRowOfKeys 0xE#4 (opN op) (opKk op) = some (decodeFamilyE op).row := by
  apply decodeFamilyE_cases op (firstRowOfKeys 0xE#4 (opN op) (opKk op) = some ·.row)
  case nopE => exact firstRowOfKeys_nopE _ _
  all_goals
    intro hN
    rw [hN]
    rfl

theorem firstRowOfKeys_familyF (op : Word) :
    firstRowOfKeys 0xF#4 (opN op) (opKk op) = some (decodeFamilyF op).row := by
  apply decodeFamilyF_cases op (firstRowOfKeys 0xF#4 (opN op) (opKk op) = some ·.row)
  case nopF => exact firstRowOfKeys_nopF _ _
  all_goals
    intro hKk
    rw [hKk]
    rfl

/-- Settles O5: both sides read the family, and where it has a second level, one key of that. -/
theorem tableFirstHit : Obligations.TableFirstHit := by
  unfold Obligations.TableFirstHit
  intro op
  rw [firstRow_eq]
  apply decodeWord_cases op (firstRowOfKeys (opT op) (opN op) (opKk op) = some ·.row)
  case f0 => exact fun hT => hT ▸ firstRowOfKeys_family0 op
  case f8 => exact fun hT => hT ▸ firstRowOfKeys_family8 op
  case fE => exact fun hT => hT ▸ firstRowOfKeys_familyE op
  case fF => exact fun hT => hT ▸ firstRowOfKeys_familyF op
  all_goals
    intro hT
    rw [hT]
    rfl

end Sys2Proof

/-! What the stack's two instructions do when they succeed (41_flow.md R91, R93), and the return to a call. -/

namespace Sys2Proof.Machine

variable (s : State) {k : Fin 16}

/-- A push at depth `k` writes slot `k` and the depth (10_state.md R18). -/
theorem State.push_result (w : Word) (hk : s.sp.val = k.val) :
    ∃ t, s.push w = .ok t ∧ t.sp.val = k.val + 1 ∧ t.stk[k] = w ∧
      KeepsAllBut (fun p => p = .sp ∨ p = .stk k) s t := by
  have hroom : s.sp.val < 16 := hk ▸ k.isLt
  refine ⟨_, s.push_ok w hroom, congrArg (· + 1) hk, by simp [hk], fun p hp => ?_⟩
  cases p with
  | sp => exact absurd (.inl rfl) hp
  | stk j =>
    have hne : s.sp.val ≠ j.val := fun h => hp (.inr (congrArg Part.stk (Fin.ext (h.symm.trans hk))))
    simp [Vector.getElem_set_ne _ _ hne]
  | _ => rfl

/-- A pop at depth `k + 1` answers slot `k` and writes the depth alone (10_state.md R18). -/
theorem State.pop_result (hk : s.sp.val = k.val + 1) :
    ∃ t, s.pop = .ok (s.stk[k], t) ∧ t.sp.val = k.val ∧ KeepsAllBut (fun p => p = .sp) s t := by
  have htop : s.sp.val - 1 = k.val := by omega
  refine ⟨_, (s.pop_ok (by omega)).trans (by simp only [htop]; rfl), rfl, fun p hp => ?_⟩
  cases p with
  | sp => exact absurd rfl hp
  | _ => rfl

end Sys2Proof.Machine

namespace Sys2Proof

open Sys2Proof.Machine

/-- Settles O32: the push, then the write of `PC`. -/
theorem callResult : Obligations.CallResult := by
  unfold Obligations.CallResult
  intro s nnn k hk
  obtain ⟨t, hpush, hsp, hslot, hkeeps⟩ := s.push_result s.pc hk
  refine ⟨t.setPc (zextAddr nnn), exec_call_of_push_ok hpush, toNat_zextAddr nnn, hsp, congrArg BitVec.toNat hslot, ?_⟩
  exact (hkeeps.weaken (by simp)).trans ((t.setPc_keeps _).weaken (by simp))

/-- Settles O33: the pop, then the write of `PC`. -/
theorem retResult : Obligations.RetResult := by
  unfold Obligations.RetResult
  intro s k hk
  obtain ⟨t, hpop, hsp, hkeeps⟩ := s.pop_result hk
  refine ⟨t.setPc s.stk[k], exec_ret_of_pop_ok hpop, rfl, hsp, ?_⟩
  exact (hkeeps.weaken (by simp)).trans ((t.setPc_keeps _).weaken (by simp))

/-- Settles O35: the slot that `RET` reads is the one that `CALL` wrote, the depth and the slot being kept between. -/
theorem callThenRet : Obligations.CallThenRet := by
  unfold Obligations.CallThenRet
  intro s t u w nnn k hk hcall hdepth hslot hret
  obtain ⟨t', hcall', -, hsp, hpushed, -⟩ := callResult s nnn k hk
  cases hcall.symm.trans hcall'
  obtain ⟨w', hret', hpc, hsp', -⟩ := retResult u k (hdepth.trans hsp)
  cases hret.symm.trans hret'
  exact ⟨hpc.trans (hslot.trans hpushed), hsp'.trans hk.symm⟩

end Sys2Proof

/-! What an instruction can write, and when it raises (10_state.md, 60_exceptions.md R160, R164): one footprint and one
fault per instruction, from which the rules about who writes a part follow. -/

namespace Sys2Proof.Machine

/-! ### The fault of an instruction and its footprint -/

/-- The fault of a window of `len` bytes at `I`, if it exceeds the memory (60_exceptions.md R161). -/
def windowFault (s : State) (len : Nat) : Option CoreFault :=
  if s.i.toNat + len ≤ 4096 then none else some (.outOfRange s.i len)

/-- The fault that the one check of an instruction raises, if it fails (60_exceptions.md R160). -/
def dispatchFault (s : State) : Instr → Option CoreFault
  | .call _ => if s.sp.val < 16 then none else some .stackOverflow
  | .ret => if 0 < s.sp.val then none else some .stackUnderflow
  | .drw _ _ n => windowFault s n.toNat
  | .ldBVx _ => windowFault s 3
  | .ldMemVx x | .ldVxMem x => windowFault s (x.val + 1)
  | _ => none

/-- The parts that an instruction writes when its check holds. -/
def writes : Instr → Part → Prop
  | .cls => Part.ofScreen
  | .ret => fun p => p = .pc ∨ p = .sp
  | .call _ => fun p => p = .pc ∨ p = .sp ∨ ∃ k, p = .stk k
  | .jp _ | .jpV0 _ | .seImm _ _ | .sneImm _ _ | .seReg _ _ | .sneReg _ _ | .skp _ | .sknp _ => fun p => p = .pc
  | .ldImm x _ | .addImm x _ | .ldReg x _ | .orReg x _ | .andReg x _ | .xorReg x _ | .ldVxDT x => fun p => p = .v x
  | .addReg x _ | .subReg x _ | .shr x _ | .subnReg x _ | .shl x _ => fun p => p = .v x ∨ p = .v 15
  | .ldI _ | .addIVx _ | .ldFVx _ => fun p => p = .i
  | .rnd x _ => fun p => p = .v x ∨ p = .draws
  | .drw _ _ _ => fun p => p.ofScreen ∨ p = .v 15
  | .ldVxK x => fun p => p = .v x ∨ p = .wait ∨ p = .waitReg
  | .ldDTVx _ => fun p => p = .dt
  | .ldSTVx _ => fun p => p = .st
  | .ldBVx _ | .ldMemVx _ => fun p => ∃ a, p = .mem a
  | .ldVxMem x => fun p => ∃ j : RegNum, p = .v j ∧ j ≤ x
  | .sys _ | .nop8 _ | .nopE _ | .nopF _ => fun _ => False

variable {s t : State} {i : Instr} {f : CoreFault}

theorem windowFault_eq_none {len : Nat} : windowFault s len = none ↔ s.i.toNat + len ≤ 4096 := by
  simp [windowFault]

theorem windowFault_eq_some {len : Nat} :
    windowFault s len = some f ↔ 4096 < s.i.toNat + len ∧ f = .outOfRange s.i len := by
  simp [windowFault, eq_comm]

theorem dispatchFault_call_eq_some {nnn : Addr12} :
    dispatchFault s (.call nnn) = some f ↔ s.sp.val = 16 ∧ f = .stackOverflow := by
  have hsp : 16 ≤ s.sp.val ↔ s.sp.val = 16 := by omega
  simp [dispatchFault, hsp, eq_comm]

theorem dispatchFault_ret_eq_some : dispatchFault s .ret = some f ↔ s.sp.val = 0 ∧ f = .stackUnderflow := by
  simp [dispatchFault, eq_comm]

/-- The six instructions that can raise, each with its fault (60_exceptions.md R160 to R163). -/
theorem dispatchFault_cases (h : dispatchFault s i = some f) :
    ((∃ nnn, i = .call nnn) ∧ f = .stackOverflow) ∨ (i = .ret ∧ f = .stackUnderflow) ∨
    (((∃ x y n, i = .drw x y n) ∨ (∃ x, i = .ldBVx x ∨ i = .ldMemVx x ∨ i = .ldVxMem x)) ∧
      ∃ len < 32, 4096 < s.i.toNat + len ∧ f = .outOfRange s.i len) := by
  cases i with
  | call nnn => exact .inl ⟨⟨nnn, rfl⟩, (dispatchFault_call_eq_some.1 h).2⟩
  | ret => exact .inr (.inl ⟨rfl, (dispatchFault_ret_eq_some.1 h).2⟩)
  | drw x y n => exact .inr (.inr ⟨.inl ⟨x, y, n, rfl⟩, n.toNat, by omega, windowFault_eq_some.1 h⟩)
  | ldBVx x => exact .inr (.inr ⟨.inr ⟨x, .inl rfl⟩, 3, by omega, windowFault_eq_some.1 h⟩)
  | ldMemVx x => exact .inr (.inr ⟨.inr ⟨x, .inr (.inl rfl)⟩, x.val + 1, by omega, windowFault_eq_some.1 h⟩)
  | ldVxMem x => exact .inr (.inr ⟨.inr ⟨x, .inr (.inr rfl)⟩, x.val + 1, by omega, windowFault_eq_some.1 h⟩)
  | _ => simp [dispatchFault] at h

/-! ### What a dispatch answers -/

theorem settle_readBlock_of_fault {len : Nat} (load : List Byte → State) (h : windowFault s len = some f) :
    s.settle ((s.mem.readBlock s.i len).map load) = .next (s.raise f) := by
  obtain ⟨hover, rfl⟩ := windowFault_eq_some.1 h
  rw [Memory.readBlock_error _ hover]
  rfl

theorem settle_writeBlock_of_fault {bs : List Byte} (h : windowFault s bs.length = some f) :
    s.settle ((s.mem.writeBlock s.i bs).map s.setMem) = .next (s.raise f) := by
  obtain ⟨hover, rfl⟩ := windowFault_eq_some.1 h
  rw [Memory.writeBlock_error _ hover]
  rfl

/-- A failed check raises its fault in the state dispatched on (60_exceptions.md R164). -/
theorem exec_of_fault (h : dispatchFault s i = some f) : exec i s = .next (s.raise f) := by
  cases i with
  | call nnn =>
    obtain ⟨hfull, rfl⟩ := dispatchFault_call_eq_some.1 h
    exact exec_call_of_push_error (s.push_full s.pc hfull)
  | ret =>
    obtain ⟨hempty, rfl⟩ := dispatchFault_ret_eq_some.1 h
    exact exec_ret_of_pop_error (s.pop_empty hempty)
  | drw x y n => exact settle_readBlock_of_fault (s.afterDraw x y) h
  | ldBVx x => exact settle_writeBlock_of_fault (bs := bcdDigits (s.reg x)) h
  | ldMemVx x => exact settle_writeBlock_of_fault (by rwa [State.length_regBlock])
  | ldVxMem x => exact settle_readBlock_of_fault s.loadRegs h
  | _ => simp [dispatchFault] at h

theorem Part.mem_of_inWindow {addr : Word} {len : Nat} (p : Part) (h : p.inWindow addr len) : ∃ a, p = .mem a := by
  cases p with
  | mem a => exact ⟨a, rfl⟩
  | _ => cases h

/-- With its check held an instruction writes its footprint and nothing else. -/
theorem exec_of_no_fault (h : dispatchFault s i = none) : ∃ t, exec i s = .next t ∧ KeepsAllBut (writes i) s t := by
  cases i with
  | cls => exact ⟨_, rfl, s.setFb_keeps _⟩
  | call nnn =>
    have hroom : s.sp.val < 16 := by simpa [dispatchFault] using h
    obtain ⟨t, hexec, -, -, -, hkeeps⟩ := callResult s nnn ⟨s.sp.val, hroom⟩ rfl
    exact ⟨t, hexec, hkeeps.weaken (by simp [writes])⟩
  | ret =>
    have hentry : s.sp ≠ 0 := by simpa [dispatchFault] using h
    obtain ⟨t, hexec, -, -, hkeeps⟩ := retResult s ⟨s.sp.val - 1, by omega⟩ (by simp; omega)
    exact ⟨t, hexec, hkeeps.weaken (by simp [writes])⟩
  | jp nnn | jpV0 _ => exact ⟨_, rfl, s.setPc_keeps _⟩
  | seImm _ _ | sneImm _ _ | seReg _ _ | sneReg _ _ | skp _ | sknp _ => exact ⟨_, rfl, s.skipIf_keeps _⟩
  | ldImm x _ | addImm x _ | ldReg x _ | orReg x _ | andReg x _ | xorReg x _ | ldVxDT x =>
    exact ⟨_, rfl, s.setReg_keeps x _⟩
  | addReg x _ | subReg x _ | shr x _ | subnReg x _ | shl x _ => exact ⟨_, rfl, s.setFlagThenReg_keeps _ x _⟩
  | ldI _ | addIVx _ | ldFVx _ => exact ⟨_, rfl, s.setI_keeps _⟩
  | rnd x _ =>
    exact ⟨_, rfl, (s.draw_keeps.weaken fun _ => .inr).trans ((State.setReg_keeps _ x _).weaken fun _ => .inl)⟩
  | drw x y n => exact ⟨_, exec_drw_ok s x y (windowFault_eq_none.1 h), s.afterDraw_keeps x y _⟩
  | ldVxK x =>
    rw [exec, execLdVxK]
    split
    · exact ⟨_, rfl, (s.setReg_keeps x _).weaken fun _ => .inl⟩
    · exact ⟨_, rfl, (s.startWait_keeps x).weaken fun _ => .inr⟩
  | ldDTVx _ => exact ⟨_, rfl, s.setDt_keeps _⟩
  | ldSTVx _ => exact ⟨_, rfl, s.setSt_keeps _⟩
  | ldBVx x =>
    exact ⟨_, s.settle_writeBlock_ok (bs := bcdDigits (s.reg x)) (windowFault_eq_none.1 h),
      (s.putBytes_keeps s.i _).weaken Part.mem_of_inWindow⟩
  | ldMemVx x =>
    exact ⟨_, s.settle_writeBlock_ok (by simpa using windowFault_eq_none.1 h),
      (s.putBytes_keeps s.i _).weaken Part.mem_of_inWindow⟩
  | ldVxMem x =>
    obtain ⟨-, hload, -⟩ := blockLoad s x
    obtain ⟨t, hexec, -, hkeeps⟩ := hload (windowFault_eq_none.1 h)
    exact ⟨t, hexec, hkeeps⟩
  | sys _ | nop8 _ | nopE _ | nopF _ => exact ⟨_, rfl, KeepsAllBut.refl _⟩

/-- The two ways a dispatch ends. -/
theorem exec_cases (hexec : exec i s = .next t) :
    (∃ f, dispatchFault s i = some f ∧ t = s.raise f) ∨ (dispatchFault s i = none ∧ KeepsAllBut (writes i) s t) := by
  cases hfault : dispatchFault s i with
  | some f =>
    cases hexec.symm.trans (exec_of_fault hfault)
    exact .inl ⟨f, rfl, rfl⟩
  | none =>
    obtain ⟨t', hexec', hkeeps⟩ := exec_of_no_fault hfault
    cases hexec.symm.trans hexec'
    exact .inr ⟨rfl, hkeeps⟩

/-- A part outside the footprint and the fault record keeps its value, whether the instruction raises or not. -/
theorem exec_view_of_not_writes (hexec : exec i s = .next t) {p : Part} (hp : ¬ writes i p) (hrecord : ¬ p.ofFault) :
    t.view p = s.view p := by
  obtain ⟨f, -, rfl⟩ | ⟨-, hkeeps⟩ := exec_cases hexec
  · exact (s.raise_raised f).frame p hrecord
  · exact hkeeps p hp

/-! ### Who writes a part -/

theorem writes_stack {k : Fin 16} (h : writes i .sp ∨ writes i (.stk k)) : (∃ nnn, i = .call nnn) ∨ i = .ret := by
  cases i with
  | call nnn => exact .inl ⟨nnn, rfl⟩
  | ret => exact .inr rfl
  | _ => simp [writes, Part.ofScreen] at h

theorem writes_pixel {r : Fin 32} {c : Fin 64} (h : writes i (.pixel r c)) : i = .cls ∨ ∃ x y n, i = .drw x y n := by
  cases i with
  | cls => exact .inl rfl
  | drw x y n => exact .inr ⟨x, y, n, rfl⟩
  | _ => simp [writes] at h

theorem writes_mem {a : Nat} (h : writes i (.mem a)) : ∃ x, i = .ldBVx x ∨ i = .ldMemVx x := by
  cases i with
  | ldBVx x => exact ⟨x, .inl rfl⟩
  | ldMemVx x => exact ⟨x, .inr rfl⟩
  | _ => simp [writes, Part.ofScreen] at h

theorem writes_pc (h : writes i .pc) :
    (∃ x kk, i = .seImm x kk ∨ i = .sneImm x kk) ∨ (∃ x y, i = .seReg x y ∨ i = .sneReg x y) ∨
      (∃ x, i = .skp x ∨ i = .sknp x) ∨ (∃ nnn, i = .jp nnn ∨ i = .call nnn ∨ i = .jpV0 nnn) ∨ i = .ret := by
  cases i with
  | seImm x kk => exact .inl ⟨x, kk, .inl rfl⟩
  | sneImm x kk => exact .inl ⟨x, kk, .inr rfl⟩
  | seReg x y => exact .inr (.inl ⟨x, y, .inl rfl⟩)
  | sneReg x y => exact .inr (.inl ⟨x, y, .inr rfl⟩)
  | skp x => exact .inr (.inr (.inl ⟨x, .inl rfl⟩))
  | sknp x => exact .inr (.inr (.inl ⟨x, .inr rfl⟩))
  | jp nnn => exact .inr (.inr (.inr (.inl ⟨nnn, .inl rfl⟩)))
  | call nnn => exact .inr (.inr (.inr (.inl ⟨nnn, .inr (.inl rfl)⟩)))
  | jpV0 nnn => exact .inr (.inr (.inr (.inl ⟨nnn, .inr (.inr rfl)⟩)))
  | ret => exact .inr (.inr (.inr (.inr rfl)))
  | _ => simp [writes, Part.ofScreen] at h

theorem writes_i (h : writes i .i) : (∃ nnn, i = .ldI nnn) ∨ ∃ x, i = .addIVx x ∨ i = .ldFVx x := by
  cases i with
  | ldI nnn => exact .inl ⟨nnn, rfl⟩
  | addIVx x => exact .inr ⟨x, .inl rfl⟩
  | ldFVx x => exact .inr ⟨x, .inr rfl⟩
  | _ => simp [writes, Part.ofScreen] at h

theorem writes_dt (h : writes i .dt) : ∃ x, i = .ldDTVx x := by
  cases i with
  | ldDTVx x => exact ⟨x, rfl⟩
  | _ => simp [writes, Part.ofScreen] at h

theorem writes_st (h : writes i .st) : ∃ x, i = .ldSTVx x := by
  cases i with
  | ldSTVx x => exact ⟨x, rfl⟩
  | _ => simp [writes, Part.ofScreen] at h

theorem writes_wait (h : writes i .wait ∨ writes i .waitReg) : ∃ x, i = .ldVxK x := by
  cases i with
  | ldVxK x => exact ⟨x, rfl⟩
  | _ => simp [writes, Part.ofScreen] at h

theorem writes_draws (h : writes i .draws) : ∃ x kk, i = .rnd x kk := by
  cases i with
  | rnd x kk => exact ⟨x, kk, rfl⟩
  | _ => simp [writes, Part.ofScreen] at h

theorem not_writes_key (k : KeyNum) : ¬ writes i (.key k) := by
  cases i <;> simp [writes, Part.ofScreen]

theorem not_writes_faulted : ¬ writes i .faulted := by
  cases i <;> simp [writes, Part.ofScreen]

theorem writes_vf (h : writes i (.v 15)) : flagWriter i ∨ resultInVf i := by
  cases i with
  | addReg _ _ | subReg _ _ | subnReg _ _ | shr _ _ | shl _ _ | drw _ _ _ => exact .inl trivial
  | ldVxMem x =>
    obtain ⟨j, hj, hle⟩ := h
    cases hj
    exact .inr (le_antisymm x.le_last hle)
  | ldImm x _ | addImm x _ | ldReg x _ | orReg x _ | andReg x _ | xorReg x _ | ldVxDT x =>
    exact .inr (Part.v.inj h).symm
  | rnd x _ | ldVxK x =>
    have hx : 15 = x := by simpa [writes] using h
    exact .inr hx.symm
  | _ => simp [writes, Part.ofScreen] at h

/-- The decay of the timers writes the two timers (40_cycle.md R76). -/
theorem State.decayTimers_keeps (s : State) : KeepsAllBut (fun p => p = .dt ∨ p = .st) s s.decayTimers :=
  ((s.setDt_keeps _).weaken fun _ => .inl).trans ((State.setSt_keeps _ _).weaken fun _ => .inr)

end Sys2Proof.Machine

namespace Sys2Proof

open Sys2Proof.Machine

/-- Settles O21: the stack is in two footprints only. -/
theorem onlyCallRetTouchStack : Obligations.OnlyCallRetTouchStack := by
  unfold Obligations.OnlyCallRetTouchStack
  intro i s t hexec hcall hret
  have hother : ¬ ((∃ nnn, i = .call nnn) ∨ i = .ret) := by simp [hcall, hret]
  exact ⟨exec_view_of_not_writes hexec (fun h => hother (writes_stack (k := 0) (.inl h))) id,
    fun k => exec_view_of_not_writes hexec (fun h => hother (writes_stack (k := k) (.inr h))) id⟩

/-- Settles O22: the pixels are in two footprints only. -/
theorem onlyClsDrwWritePixels : Obligations.OnlyClsDrwWritePixels := by
  unfold Obligations.OnlyClsDrwWritePixels
  intro i s t r c hexec hcls hdrw
  exact exec_view_of_not_writes hexec (fun h => by simpa [hcls, hdrw] using writes_pixel h) id

/-- Settles O23: the bytes of memory are in two footprints only. -/
theorem onlyTwoWriteMemory : Obligations.OnlyTwoWriteMemory := by
  unfold Obligations.OnlyTwoWriteMemory
  intro i s t a hexec hbcd hblock
  exact exec_view_of_not_writes hexec (fun h => by simpa [hbcd, hblock] using writes_mem h) id

/-- Settles O24: `PC` is in the footprints of the flow family and of the key skips only. -/
theorem onlyFlowChangesPc : Obligations.OnlyFlowChangesPc := by
  unfold Obligations.OnlyFlowChangesPc
  intro i s t hexec himm hreg hkey hjump hret
  exact exec_view_of_not_writes hexec (fun h => by simpa [himm, hreg, hkey, hjump, hret] using writes_pc h) id

/-- Settles O25: each of the five is in the footprints of its own writers only. -/
theorem writersOfSpecialRegisters : Obligations.WritersOfSpecialRegisters := by
  unfold Obligations.WritersOfSpecialRegisters
  intro i s t hexec
  refine ⟨fun hld hadd => ?_, fun hdt => ?_, fun hst => ?_, fun hk => ⟨?_, ?_⟩, fun hrnd => ?_⟩
  · exact exec_view_of_not_writes hexec (fun h => by simpa [hld, hadd] using writes_i h) id
  · exact exec_view_of_not_writes hexec (fun h => by simpa [hdt] using writes_dt h) id
  · exact exec_view_of_not_writes hexec (fun h => by simpa [hst] using writes_st h) id
  · exact exec_view_of_not_writes hexec (fun h => by simpa [hk] using writes_wait (.inl h)) id
  · exact exec_view_of_not_writes hexec (fun h => by simpa [hk] using writes_wait (.inr h)) id
  · exact exec_view_of_not_writes hexec (fun h => by simpa [hrnd] using writes_draws h) id

/-- Settles O20: no way through a cycle writes the latch, since it is in no footprint. -/
theorem cyclesKeepKeys : Obligations.CyclesKeepKeys := by
  unfold Obligations.CyclesKeepKeys
  intro s t k hstep
  obtain ⟨-, rfl⟩ | ⟨-, -, rfl⟩ | ⟨-, -, -, rfl⟩ | ⟨-, -, op, u, -, hexec, rfl⟩ := step_cases hstep
  case inl => rfl
  case inr.inl => exact (State.decayTimers_keeps _ _ (by simp)).trans (s.retryWait_keeps _ (by simp))
  case inr.inr.inl => rfl
  case inr.inr.inr =>
    have hkept : u.view (.key k) = s.view (.key k) := exec_view_of_not_writes hexec (not_writes_key k) id
    cases u.faulted <;> exact hkept

/-- Settles O28: a fault is the one of the instruction's own check, raised in the state dispatched on. -/
theorem dispatchFaultsArePrecise : Obligations.DispatchFaultsArePrecise := by
  unfold Obligations.DispatchFaultsArePrecise
  intro i s t hf hexec ht
  obtain ⟨f, hfault, rfl⟩ | ⟨-, hkeeps⟩ := exec_cases hexec
  case inl =>
    refine ⟨(s.raise_raised f).frame, ?_⟩
    obtain ⟨hi, rfl⟩ | ⟨hi, rfl⟩ | ⟨hi, len, hlen, hover, rfl⟩ := dispatchFault_cases hfault
    · exact .inl ⟨hi, rfl⟩
    · exact .inr (.inl ⟨hi, rfl⟩)
    · have hraised := s.raise_outOfRange s.i hlen
      refine .inr (.inr ⟨hi, hraised.cause, hraised.addr, ?_⟩)
      rwa [hraised.addr, hraised.len]
  case inr =>
    have hkept : t.faulted.toNat = s.faulted.toNat := hkeeps .faulted not_writes_faulted
    simp [hf, ht] at hkept

end Sys2Proof

/-! `VF` as a side effect (10_state.md R12): the six that write it leave a flag there. -/

namespace Sys2Proof.Machine

variable {s t : State} {i : Instr} {x y : RegNum}

theorem view_vf_le_one_of_setFlagThenReg {flag : Bool} {result : Byte} (hexec : exec i s = .next t)
    (hwrite : exec i s = .next (s.setFlagThenReg flag x result)) (hx : x ≠ 15) : t.view (.v 15) ≤ 1 := by
  obtain ⟨t', hexec', -, hvf, -⟩ := exec_of_setFlagThenReg hwrite rfl rfl
  cases hexec.symm.trans hexec'
  exact (hvf hx).trans_le flag.toNat_le

theorem view_vf_le_one_of_drw {n : Nibble} (hexec : exec (.drw x y n) s = .next t) (ht : t.faulted = false) :
    t.view (.v 15) ≤ 1 := by
  obtain ⟨f, -, rfl⟩ | ⟨hfault, -⟩ := exec_cases hexec
  · cases ht
  · cases hexec.symm.trans (exec_drw_ok s x y (windowFault_eq_none.1 hfault))
    rw [State.view_vf_afterDraw]
    exact Bool.toNat_le _

end Sys2Proof.Machine

namespace Sys2Proof

open Sys2Proof.Machine

/-- Settles O26: `VF` is in the footprint of a flag writer or of a result in it; a flag is one bit. -/
theorem sixWriteVf : Obligations.SixWriteVf := by
  unfold Obligations.SixWriteVf
  intro i s t hexec hresult
  constructor
  · intro hflag
    exact exec_view_of_not_writes hexec (fun h => (writes_vf h).elim hflag hresult) id
  · intro hflag ht
    cases i with
    | addReg _ _ | subReg _ _ | subnReg _ _ | shr _ _ | shl _ _ =>
      exact view_vf_le_one_of_setFlagThenReg hexec rfl hresult
    | drw _ _ _ => exact view_vf_le_one_of_drw hexec ht
    | _ => exact hflag.elim

end Sys2Proof

/-! Two states that differ in `VF` at most (10_state.md R12): what they share, and that every operation and instruction
given the same operands keeps them so. -/

namespace Sys2Proof.Machine

theorem bool_toNat_injective : Function.Injective Bool.toNat := Function.LeftInverse.injective Bool.ofNat_toNat

/-- `s'` shows what `s` shows in every part but `VF`. -/
def AgreeOffVf (s s' : State) : Prop := KeepsAllBut (fun p => p = .v 15) s s'

variable {s s' t t' : State}

/-- Writes of the same values in both states keep the agreement. -/
theorem AgreeOffVf.of_writes {named : Part → Prop} (h : AgreeOffVf s s') (ht : KeepsAllBut named s t)
    (ht' : KeepsAllBut named s' t') (hvalues : ∀ p, named p → p ≠ .v 15 → t'.view p = t.view p) : AgreeOffVf t t' := by
  intro p hp
  by_cases hnamed : named p
  · exact hvalues p hnamed hp
  · calc t'.view p = s'.view p := ht' p hnamed
      _ = s.view p := h p hp
      _ = t.view p := (ht p hnamed).symm

variable (h : AgreeOffVf s s')
include h

/-! ### What they share -/

theorem AgreeOffVf.reg {r : RegNum} (hr : r ≠ 15) : s'.reg r = s.reg r :=
  BitVec.eq_of_toNat_eq (h (.v r) fun e => hr (Part.v.inj e))

theorem AgreeOffVf.i : s'.i = s.i := BitVec.eq_of_toNat_eq (h .i nofun)

theorem AgreeOffVf.pc : s'.pc = s.pc := BitVec.eq_of_toNat_eq (h .pc nofun)

theorem AgreeOffVf.dt : s'.dt = s.dt := BitVec.eq_of_toNat_eq (h .dt nofun)

theorem AgreeOffVf.sp : s'.sp = s.sp := Fin.ext (h .sp nofun)

theorem AgreeOffVf.draws : s'.draws = s.draws := h .draws nofun

theorem AgreeOffVf.byteAt (a : Nat) : s'.mem.byteAt a = s.mem.byteAt a := BitVec.eq_of_toNat_eq (h (.mem a) nofun)

theorem AgreeOffVf.fb : s'.fb = s.fb :=
  Framebuffer.ext_pixel fun r c => bool_toNat_injective (h (.pixel r c) nofun)

theorem AgreeOffVf.keyDown : s'.keyDown = s.keyDown := funext fun k => bool_toNat_injective (h (.key k) nofun)

theorem AgreeOffVf.leastKey : s'.leastKey = s.leastKey := by rw [State.leastKey, State.leastKey, h.keyDown]

theorem AgreeOffVf.bytesFrom (a len : Nat) : s'.mem.bytesFrom a len = s.mem.bytesFrom a len := by
  apply List.ext_getElem
  · simp
  · intro j _ _
    rw [Memory.getElem_bytesFrom, Memory.getElem_bytesFrom, h.byteAt]

/-- A register block below `VF` (43_index_memory.md R124). -/
theorem AgreeOffVf.regBlock {x : RegNum} (hx : x ≠ 15) : s'.regBlock x = s.regBlock x := by
  apply List.ext_getElem
  · simp
  · intro j _ hj
    rw [State.getElem_regBlock, State.getElem_regBlock, h.reg]
    rw [State.length_regBlock] at hj
    have hlt : x.val < 15 := Fin.val_lt_last hx
    exact Fin.ne_of_val_ne (show j ≠ 15 by omega)

/-! ### The operations -/

theorem AgreeOffVf.setReg (r : RegNum) (b : Byte) : AgreeOffVf (s.setReg r b) (s'.setReg r b) :=
  h.of_writes (s.setReg_keeps r b) (s'.setReg_keeps r b) (by rintro _ rfl -; simp)

theorem AgreeOffVf.setI (w : Word) : AgreeOffVf (s.setI w) (s'.setI w) :=
  h.of_writes (s.setI_keeps w) (s'.setI_keeps w) (by rintro _ rfl -; rfl)

theorem AgreeOffVf.setPc (w : Word) : AgreeOffVf (s.setPc w) (s'.setPc w) :=
  h.of_writes (s.setPc_keeps w) (s'.setPc_keeps w) (by rintro _ rfl -; rfl)

theorem AgreeOffVf.setDt (b : Byte) : AgreeOffVf (s.setDt b) (s'.setDt b) :=
  h.of_writes (s.setDt_keeps b) (s'.setDt_keeps b) (by rintro _ rfl -; rfl)

theorem AgreeOffVf.setSt (b : Byte) : AgreeOffVf (s.setSt b) (s'.setSt b) :=
  h.of_writes (s.setSt_keeps b) (s'.setSt_keeps b) (by rintro _ rfl -; rfl)

theorem AgreeOffVf.startWait (x : RegNum) : AgreeOffVf (s.startWait x) (s'.startWait x) :=
  h.of_writes (s.startWait_keeps x) (s'.startWait_keeps x) (by rintro _ (rfl | rfl) - <;> rfl)

theorem AgreeOffVf.setFb (fb : Framebuffer) : AgreeOffVf (s.setFb fb) (s'.setFb fb) := by
  refine h.of_writes (s.setFb_keeps fb) (s'.setFb_keeps fb) fun p hp _ => ?_
  cases p with
  | pixel r c => rfl
  | _ => cases hp

theorem AgreeOffVf.draw : AgreeOffVf s.draw.2 s'.draw.2 :=
  h.of_writes s.draw_keeps s'.draw_keeps (by rintro _ rfl -; exact congrArg (· + 1) h.draws)

theorem AgreeOffVf.raise (f : CoreFault) : AgreeOffVf (s.raise f) (s'.raise f) := by
  refine h.of_writes (s.raise_raised f).frame (s'.raise_raised f).frame fun p hp _ => ?_
  cases p with
  | faulted | faultCause | faultAddr | faultLen => rfl
  | _ => cases hp

theorem AgreeOffVf.loadRegs (bs : List Byte) : AgreeOffVf (s.loadRegs bs) (s'.loadRegs bs) :=
  h.of_writes (s.loadRegs_keeps bs) (s'.loadRegs_keeps bs)
    (by rintro _ ⟨r, rfl, hr⟩ -; simp [State.reg_loadRegs, hr])

theorem AgreeOffVf.putBytes (addr : Word) (bs : List Byte) :
    AgreeOffVf (s.setMem (s.mem.putBytes addr.toNat bs)) (s'.setMem (s'.mem.putBytes addr.toNat bs)) := by
  refine h.of_writes (s.putBytes_keeps addr bs) (s'.putBytes_keeps addr bs) fun p hp _ => ?_
  obtain ⟨a, rfl⟩ := p.mem_of_inWindow hp
  simp [Memory.byteAt_putBytes, h.byteAt]

theorem AgreeOffVf.skipIf (c : Bool) : AgreeOffVf (s.skipIf c) (s'.skipIf c) := by
  cases c with
  | false => exact h
  | true =>
    change AgreeOffVf (s.setPc (s.pc + 2)) (s'.setPc (s'.pc + 2))
    rw [h.pc]
    exact h.setPc _

theorem AgreeOffVf.setFlagThenReg (flag : Bool) (x : RegNum) (result : Byte) :
    AgreeOffVf (s.setFlagThenReg flag x result) (s'.setFlagThenReg flag x result) :=
  (h.setReg vf _).setReg x result

omit h

/-! ### The instructions -/

/-- Both outcomes are next states, and they agree. -/
def OutcomesAgree (r r' : Host.Outcome State Fault Refusal) : Prop :=
  ∃ t t', r = .next t ∧ r' = .next t' ∧ AgreeOffVf t t'

theorem OutcomesAgree.next (h : AgreeOffVf t t') : OutcomesAgree (.next t) (.next t') := ⟨t, t', rfl, rfl, h⟩

theorem OutcomesAgree.readBlock {load load' : List Byte → State} (h : AgreeOffVf s s') (len : Nat)
    (hload : ∀ bs, AgreeOffVf (load bs) (load' bs)) :
    OutcomesAgree (s.settle ((s.mem.readBlock s.i len).map load))
      (s'.settle ((s'.mem.readBlock s'.i len).map load')) := by
  have hread : s'.mem.readBlock s'.i len = s.mem.readBlock s.i len := by
    rw [Memory.readBlock, Memory.readBlock, h.i, h.bytesFrom]
  rw [hread]
  cases s.mem.readBlock s.i len with
  | ok bs => exact .next (hload bs)
  | error f => exact .next (h.raise f)

theorem OutcomesAgree.writeBlock (h : AgreeOffVf s s') (bs : List Byte) :
    OutcomesAgree (s.settle ((s.mem.writeBlock s.i bs).map s.setMem))
      (s'.settle ((s'.mem.writeBlock s'.i bs).map s'.setMem)) := by
  rw [h.i, Memory.writeBlock, Memory.writeBlock]
  split
  · exact .next (h.putBytes s.i bs)
  · exact .next (h.raise _)

theorem OutcomesAgree.raise {i : Instr} {f : CoreFault} (h : AgreeOffVf s s') (hfault : dispatchFault s i = some f)
    (hfault' : dispatchFault s' i = some f) : OutcomesAgree (exec i s) (exec i s') :=
  ⟨_, _, exec_of_fault hfault, exec_of_fault hfault', h.raise f⟩

theorem OutcomesAgree.call (h : AgreeOffVf s s') (nnn : Addr12) :
    OutcomesAgree (exec (.call nnn) s) (exec (.call nnn) s') := by
  by_cases hroom : s.sp.val < 16
  · obtain ⟨t, hexec, hpc, hsp, hslot, hkeeps⟩ := callResult s nnn ⟨s.sp.val, hroom⟩ rfl
    obtain ⟨t', hexec', hpc', hsp', hslot', hkeeps'⟩ := callResult s' nnn ⟨s.sp.val, hroom⟩ (congrArg Fin.val h.sp)
    refine ⟨t, t', hexec, hexec', h.of_writes hkeeps hkeeps' fun p hp _ => ?_⟩
    obtain rfl | rfl | rfl : p = .pc ∨ p = .sp ∨ p = .stk ⟨s.sp.val, hroom⟩ := by simpa using hp
    · rw [hpc, hpc']
    · rw [hsp, hsp']
    · rw [hslot, hslot', State.view_pc, State.view_pc, h.pc]
  · exact .raise h (f := .stackOverflow) (by simp [dispatchFault, hroom]) (by simp [dispatchFault, h.sp, hroom])

theorem OutcomesAgree.ret (h : AgreeOffVf s s') : OutcomesAgree (exec .ret s) (exec .ret s') := by
  obtain hempty | ⟨k, hk⟩ : s.sp.val = 0 ∨ ∃ k : Fin 16, s.sp.val = k.val + 1 := by
    have hcap := s.sp.isLt
    by_cases hempty : s.sp.val = 0
    · exact .inl hempty
    · exact .inr ⟨⟨s.sp.val - 1, by omega⟩, by simp; omega⟩
  · exact .raise h (f := .stackUnderflow) (by simp [dispatchFault, hempty]) (by simp [dispatchFault, h.sp, hempty])
  · obtain ⟨t, hexec, hpc, hsp, hkeeps⟩ := retResult s k hk
    obtain ⟨t', hexec', hpc', hsp', hkeeps'⟩ := retResult s' k ((congrArg Fin.val h.sp).trans hk)
    refine ⟨t, t', hexec, hexec', h.of_writes hkeeps hkeeps' fun p hp _ => ?_⟩
    obtain rfl | rfl : p = .pc ∨ p = .sp := by simpa using hp
    · rw [hpc, hpc', h (.stk k) nofun]
    · rw [hsp, hsp']

/-- An instruction that does not name `VF` does the same in both states: its operands are shared. -/
theorem exec_outcomesAgree {i : Instr} (hn : ¬ namesVf i) (h : AgreeOffVf s s') :
    OutcomesAgree (exec i s) (exec i s') := by
  cases i with
  | sys _ | nop8 _ | nopE _ | nopF _ => exact .next h
  | cls => exact .next (h.setFb _)
  | ret => exact .ret h
  | call nnn => exact .call h nnn
  | jp nnn => exact .next (h.setPc _)
  | ldI nnn => exact .next (h.setI _)
  | ldImm x kk => exact .next (h.setReg x kk)
  | jpV0 nnn =>
    simp only [exec, execJpV0, h.reg (r := 0) (by decide)]
    exact .next (h.setPc _)
  | seImm x kk | sneImm x kk =>
    simp only [exec, execSeImm, execSneImm, h.reg hn]
    exact .next (h.skipIf _)
  | seReg x y | sneReg x y =>
    obtain ⟨hx, hy⟩ := not_or.1 hn
    simp only [exec, execSeReg, execSneReg, h.reg hx, h.reg hy]
    exact .next (h.skipIf _)
  | skp x | sknp x =>
    simp only [exec, execSkp, execSknp, h.reg hn, h.keyDown]
    exact .next (h.skipIf _)
  | addImm x kk =>
    simp only [exec, execAddImm, h.reg hn]
    exact .next (h.setReg x _)
  | ldReg x y | orReg x y | andReg x y | xorReg x y =>
    obtain ⟨hx, hy⟩ := not_or.1 hn
    simp only [exec, execLdReg, execOr, execAnd, execXor, h.reg hx, h.reg hy]
    exact .next (h.setReg x _)
  | addReg x y | subReg x y | subnReg x y =>
    obtain ⟨hx, hy⟩ := not_or.1 hn
    simp only [exec, execAddReg, execSub, execSubn, h.reg hx, h.reg hy]
    exact .next (h.setFlagThenReg _ x _)
  | shr x y | shl x y =>
    simp only [exec, execShr, execShl, h.reg hn]
    exact .next (h.setFlagThenReg _ x _)
  | rnd x kk =>
    simp only [exec, execRnd, State.draw_byte, h.draws]
    exact .next (h.draw.setReg x _)
  | drw x y n =>
    obtain ⟨hx, hy⟩ := not_or.1 hn
    simp only [exec, execDrw, h.reg hx, h.reg hy, h.fb]
    exact .readBlock h n.toNat fun rows => (h.setFb _).setReg vf _
  | ldVxDT x =>
    simp only [exec, execLdVxDT, h.dt]
    exact .next (h.setReg x _)
  | ldVxK x =>
    simp only [exec, execLdVxK, h.leastKey]
    split
    · exact .next (h.setReg x _)
    · exact .next (h.startWait x)
  | ldDTVx x =>
    simp only [exec, execLdDTVx, h.reg hn]
    exact .next (h.setDt _)
  | ldSTVx x =>
    simp only [exec, execLdSTVx, h.reg hn]
    exact .next (h.setSt _)
  | addIVx x | ldFVx x =>
    simp only [exec, execAddIVx, execLdFVx, h.reg hn, h.i]
    exact .next (h.setI _)
  | ldBVx x =>
    simp only [exec, execLdBVx, h.reg hn]
    exact .writeBlock h _
  | ldMemVx x =>
    simp only [exec, execLdMemVx, h.regBlock hn]
    exact .writeBlock h _
  | ldVxMem x => exact .readBlock h _ h.loadRegs

end Sys2Proof.Machine

namespace Sys2Proof

open Sys2Proof.Machine

/-- Settles O27: the instruction's two outcomes are the two states given. -/
theorem vfReadOnlyByName : Obligations.VfReadOnlyByName := by
  unfold Obligations.VfReadOnlyByName
  intro i s s' t t' hn h hexec hexec'
  obtain ⟨u, u', hu, hu', hagree⟩ := exec_outcomesAgree hn h
  cases hexec.symm.trans hu
  cases hexec'.symm.trans hu'
  exact hagree

end Sys2Proof

/-! The invariant (10_state.md, 60_exceptions.md): what each write must respect to keep it, every step, and every move
of the outside agents. -/

namespace Sys2Proof.Machine

variable {s t : State}

/-! ### The writes -/

/-- The invariant says nothing of `V`, `I`, the timers, the depth, the pixels, the latch and the count of draws. -/
theorem State.Inv.withData (h : s.Inv) (v : Vector Byte 16) (i : Word) (dt st : Byte) (sp : Fin 17) (fb : Framebuffer)
    (key : Vector Bool 16) (draws : Nat) :
    ({ s with v := v, i := i, dt := dt, st := st, sp := sp, fb := fb, key := key, draws := draws } : State).Inv :=
  ⟨h.memWf, h.pcBound, h.stkBound, h.recordZero, h.causeGiven, h.recordTrue, h.recordEmpty, h.waitRuns, h.waitRegClear⟩

theorem State.Inv.setPc (h : s.Inv) {w : Word} (hw : w.toNat ≤ 0x10FE) : (s.setPc w).Inv :=
  ⟨h.memWf, hw, h.stkBound, h.recordZero, h.causeGiven, h.recordTrue, h.recordEmpty, h.waitRuns, h.waitRegClear⟩

theorem State.Inv.setMem (h : s.Inv) {m : Memory} (hm : m.wf = true) : (s.setMem m).Inv :=
  ⟨hm, h.pcBound, h.stkBound, h.recordZero, h.causeGiven, h.recordTrue, h.recordEmpty, h.waitRuns, h.waitRegClear⟩

theorem State.Inv.startWait (h : s.Inv) (hf : s.faulted = false) (x : RegNum) : (s.startWait x).Inv :=
  ⟨h.memWf, h.pcBound, h.stkBound, h.recordZero, h.causeGiven, h.recordTrue, h.recordEmpty, fun _ => hf, nofun⟩

theorem State.Inv.endWait (h : s.Inv) : s.endWait.Inv :=
  ⟨h.memWf, h.pcBound, h.stkBound, h.recordZero, h.causeGiven, h.recordTrue, h.recordEmpty, nofun, fun _ => rfl⟩

theorem State.Inv.skipIf (h : s.Inv) (hpc : s.pc.toNat ≤ 0x1000) (c : Bool) : (s.skipIf c).Inv := by
  cases c with
  | false => exact h
  | true => exact h.setPc (by bv_omega)

/-- A push of an advanced `PC` keeps the bound on the slots. -/
theorem State.Inv.push (h : s.Inv) {w : Word} (hw : w.toNat ≤ 0x1000) (hroom : s.sp.val < 16) :
    ∃ t, s.push w = .ok t ∧ t.Inv := by
  refine ⟨_, s.push_ok w hroom, h.memWf, h.pcBound, fun k => ?_, h.recordZero, h.causeGiven, h.recordTrue,
    h.recordEmpty, h.waitRuns, h.waitRegClear⟩
  by_cases hk : s.sp.val = k.val
  · simpa [hk] using hw
  · simpa [Vector.getElem_set_ne _ _ hk] using h.stkBound k

/-- A pop answers a slot, so a bounded address. -/
theorem State.Inv.pop (h : s.Inv) (hentry : 0 < s.sp.val) :
    ∃ w t, s.pop = .ok (w, t) ∧ w.toNat ≤ 0x1000 ∧ t.Inv :=
  ⟨_, _, s.pop_ok hentry, h.stkBound ⟨s.sp.val - 1, by have := s.sp.isLt; omega⟩, h.withData ..⟩

theorem CoreFault.code_ne_zero (f : CoreFault) : f.code ≠ 0 := by
  cases f <;> simp [CoreFault.code]

/-- The window of a fault is one that the record can hold, and it exceeds the memory (60_exceptions.md R161, R165). -/
def CoreFault.Recordable : CoreFault → Prop
  | .outOfRange addr len => len < 32 ∧ 4096 < addr.toNat + len
  | .stackOverflow | .stackUnderflow => True

theorem State.Inv.raise (h : s.Inv) (hw : s.wait = false) {f : CoreFault} (hrec : f.Recordable) : (s.raise f).Inv where
  memWf := h.memWf
  pcBound := h.pcBound
  stkBound := h.stkBound
  recordZero := nofun
  causeGiven _ := f.code_ne_zero
  recordTrue _ hcause := by
    cases f with
    | outOfRange addr len =>
      obtain ⟨hlen, hover⟩ := hrec
      have hraised := s.raise_outOfRange addr hlen
      rw [← hraised.addr, ← hraised.len] at hover
      exact hover
    | stackOverflow | stackUnderflow => cases hcause
  recordEmpty _ hcause := by
    cases f with
    | outOfRange addr len => exact absurd rfl hcause
    | stackOverflow | stackUnderflow => exact ⟨rfl, rfl⟩
  waitRuns hwait := by simp [hw] at hwait
  waitRegClear := h.waitRegClear

theorem dispatchFault_recordable {i : Instr} {f : CoreFault} (h : dispatchFault s i = some f) : f.Recordable := by
  obtain ⟨-, rfl⟩ | ⟨-, rfl⟩ | ⟨-, len, hlen, hover, rfl⟩ := dispatchFault_cases h
  · trivial
  · trivial
  · exact ⟨hlen, hover⟩

/-! ### A dispatch -/

theorem exec_inv_of_no_fault {i : Instr} (h : s.Inv) (hf : s.faulted = false) (hpc : s.pc.toNat ≤ 0x1000)
    (hfault : dispatchFault s i = none) : ∃ t, exec i s = .next t ∧ t.Inv := by
  cases i with
  | sys _ | nop8 _ | nopE _ | nopF _ => exact ⟨_, rfl, h⟩
  | cls | ldImm _ _ | addImm _ _ | ldReg _ _ | orReg _ _ | andReg _ _ | xorReg _ _ | addReg _ _ | subReg _ _ | shr _ _
  | subnReg _ _ | shl _ _ | rnd _ _ | ldVxDT _ | ldDTVx _ | ldSTVx _ | ldI _ | addIVx _ | ldFVx _ =>
    exact ⟨_, rfl, h.withData ..⟩
  | seImm _ _ | sneImm _ _ | seReg _ _ | sneReg _ _ | skp _ | sknp _ => exact ⟨_, rfl, h.skipIf hpc _⟩
  | jp nnn => exact ⟨_, rfl, h.setPc (by have := nnn.isLt; rw [toNat_zextAddr]; omega)⟩
  | jpV0 nnn =>
    exact ⟨_, rfl, h.setPc (by have := nnn.isLt; have := (s.reg 0).isLt; rw [toNat_indexedTarget]; omega)⟩
  | call nnn =>
    obtain ⟨t, hpush, ht⟩ := h.push hpc (by simpa [dispatchFault] using hfault)
    exact ⟨_, exec_call_of_push_ok hpush, ht.setPc (by have := nnn.isLt; rw [toNat_zextAddr]; omega)⟩
  | ret =>
    have hentry : s.sp ≠ 0 := by simpa [dispatchFault] using hfault
    obtain ⟨w, t, hpop, hw, ht⟩ := h.pop (by omega)
    exact ⟨_, exec_ret_of_pop_ok hpop, ht.setPc (by omega)⟩
  | drw x y n => exact ⟨_, exec_drw_ok s x y (windowFault_eq_none.1 hfault), h.withData ..⟩
  | ldVxK x =>
    rw [exec, execLdVxK]
    split
    · exact ⟨_, rfl, h.withData ..⟩
    · exact ⟨_, rfl, h.startWait hf x⟩
  | ldBVx x =>
    have hrange := windowFault_eq_none.1 hfault
    exact ⟨_, s.settle_writeBlock_ok (bs := bcdDigits (s.reg x)) hrange,
      h.setMem (Memory.wf_putBytes _ _ _ hrange h.memWf)⟩
  | ldMemVx x =>
    have hrange : s.i.toNat + (s.regBlock x).length ≤ 4096 := by simpa using windowFault_eq_none.1 hfault
    exact ⟨_, s.settle_writeBlock_ok hrange, h.setMem (Memory.wf_putBytes _ _ _ hrange h.memWf)⟩
  | ldVxMem x => exact ⟨_, s.settle_readBlock_ok s.loadRegs (windowFault_eq_none.1 hfault), h.withData ..⟩

/-- A dispatch on the advanced state keeps the invariant, whether it raises or not. -/
theorem exec_inv {i : Instr} (h : s.Inv) (hf : s.faulted = false) (hw : s.wait = false) (hpc : s.pc.toNat ≤ 0x1000)
    (hexec : exec i s = .next t) : t.Inv := by
  cases hfault : dispatchFault s i with
  | some f =>
    cases hexec.symm.trans (exec_of_fault hfault)
    exact h.raise hw (dispatchFault_recordable hfault)
  | none =>
    obtain ⟨t', hexec', ht'⟩ := exec_inv_of_no_fault h hf hpc hfault
    cases hexec.symm.trans hexec'
    exact ht'

theorem State.Inv.retryWait (h : s.Inv) : s.retryWait.Inv := by
  obtain ⟨k, -, hretry⟩ | ⟨-, hretry⟩ := s.retryWait_cases
  · rw [hretry]
    exact State.Inv.endWait (h.withData ..)
  · rwa [hretry]

/-- The advance of a fetched instruction (40_cycle.md R73): `PC` is at most 0x1000 after it. -/
theorem State.toNat_pc_stepPc_le {op : Word} (hfetch : s.fetch = .ok op) : s.stepPc.pc.toNat ≤ 0x1000 := by
  have hpc := State.pc_inRange_of_fetch hfetch
  rw [State.stepPc_pc]
  bv_omega

end Sys2Proof.Machine

namespace Sys2Proof

open Sys2Proof.Machine

/-- Settles O17: by the four ways through a cycle; a dispatch runs on an advanced state, whose `PC` the fetch bounds. -/
theorem stepKeepsInv : Obligations.StepKeepsInv := by
  unfold Obligations.StepKeepsInv
  intro s t h hstep
  obtain ⟨-, rfl⟩ | ⟨-, -, rfl⟩ | ⟨-, hw, hover, rfl⟩ | ⟨hf, hw, op, u, hfetch, hexec, rfl⟩ := step_cases hstep
  case inl => exact h
  case inr.inl => exact h.retryWait.withData ..
  case inr.inr.inl => exact h.raise hw ⟨by decide, hover⟩
  case inr.inr.inr =>
    have hpc := State.toNat_pc_stepPc_le hfetch
    have hu : u.Inv := exec_inv (s := s.stepPc) (h.setPc (hpc.trans (by decide))) hf hw hpc hexec
    split
    · exact hu
    · exact hu.withData ..

/-- Settles O16: each clause on the reset values. -/
theorem resetMeetsInv : Obligations.ResetMeetsInv := by
  unfold Obligations.ResetMeetsInv
  exact {
    memWf := State.reset_wf
    pcBound := by decide
    stkBound := by decide
    recordZero := fun _ => ⟨rfl, rfl, rfl⟩
    causeGiven := nofun
    recordTrue := nofun
    recordEmpty := nofun
    waitRuns := nofun
    waitRegClear := fun _ => rfl }

end Sys2Proof

namespace Sys2Proof.Machine

variable {e e' : Env}

/-! ### The moves of the outside agents -/

theorem Env.step_of_move_step (h : e.move .step = some e') : ∃ t, step e.core = .next t ∧ e' = ⟨t, true⟩ := by
  rw [Env.move] at h
  split at h
  · rename_i t hstep
    exact ⟨t, hstep, (Option.some.inj h).symm⟩
  · cases h
  · cases h

theorem Env.core_of_move_load {addr : Addr12} {data : Byte} (h : e.move (.load addr data) = some e') :
    e'.core = e.core.setMem (e.core.mem.put addr.toNat data) := by
  rw [Env.move] at h
  split at h
  · exact congrArg Env.core (Option.some.inj h).symm
  · cases h

end Sys2Proof.Machine

namespace Sys2Proof

open Sys2Proof.Machine

/-- Settles O18: a step by O17, a load by the canonical form that a write in the memory keeps; the others write no part
the invariant speaks of, or everything. -/
theorem outsideMovesKeepInv : Obligations.OutsideMovesKeepInv := by
  unfold Obligations.OutsideMovesKeepInv
  intro e e' m h hmove
  cases m with
  | reset =>
    cases hmove
    exact State.Inv.withData resetMeetsInv ..
  | step =>
    obtain ⟨t, hstep, rfl⟩ := Env.step_of_move_step hmove
    exact stepKeepsInv e.core t h hstep
  | load addr data =>
    rw [Env.core_of_move_load hmove]
    exact h.setMem (Memory.wf_put _ data addr.isLt h.memWf)
  | press k | release k =>
    cases hmove
    exact h.withData ..

end Sys2Proof

/-! The canonical form of the memory: the bytes determine the list of cells, and so the parts the state. -/

namespace Sys2Proof.Machine

/-- Below its first cell a canonical list reads as the reset contents. -/
theorem Memory.byteAt_of_lt {m : Memory} : ∀ {lo a : Nat}, Memory.wfFrom lo m = true → a < lo →
    m.byteAt a = resetByte a := by
  induction m with
  | nil => exact fun _ _ => rfl
  | cons cell m ih =>
    obtain ⟨k, b⟩ := cell
    intro lo a hwf ha
    obtain ⟨hlo, -, -, hm⟩ := (Memory.wfFrom_cons lo k b m).1 hwf
    rw [Memory.byteAt_cons, if_neg (by omega), ih hm (by omega)]

/-- The first cell of a canonical list lies where no list that starts above it shows the same byte. -/
theorem Memory.le_of_byteAt_eq {lo lo' k : Nat} {b : Byte} {m m' : Memory}
    (hwf : Memory.wfFrom lo ((k, b) :: m) = true) (hwf' : Memory.wfFrom lo' m' = true)
    (h : Memory.byteAt ((k, b) :: m) k = m'.byteAt k) : lo' ≤ k := by
  obtain ⟨-, -, hb, -⟩ := (Memory.wfFrom_cons lo k b m).1 hwf
  by_contra hlt
  rw [Memory.byteAt_cons, if_pos rfl, Memory.byteAt_of_lt hwf' (by omega)] at h
  exact hb h

/-- Two canonical lists that show the same bytes are equal. -/
theorem Memory.eq_of_byteAt_eq {m : Memory} : ∀ {lo lo' : Nat} {m' : Memory}, Memory.wfFrom lo m = true →
    Memory.wfFrom lo' m' = true → (∀ a, m.byteAt a = m'.byteAt a) → m = m' := by
  induction m with
  | nil =>
    intro lo lo' m' _ hwf' h
    cases m' with
    | nil => rfl
    | cons cell' m' =>
      obtain ⟨k', b'⟩ := cell'
      have hle : k' + 1 ≤ k' := Memory.le_of_byteAt_eq (m' := []) hwf' rfl (h k').symm
      omega
  | cons cell m ih =>
    obtain ⟨k, b⟩ := cell
    intro lo lo' m' hwf hwf' h
    cases m' with
    | nil =>
      have hle : k + 1 ≤ k := Memory.le_of_byteAt_eq (m' := []) hwf rfl (h k)
      omega
    | cons cell' m' =>
      obtain ⟨k', b'⟩ := cell'
      obtain ⟨-, hk, hb, hm⟩ := (Memory.wfFrom_cons lo k b m).1 hwf
      obtain ⟨-, hk', hb', hm'⟩ := (Memory.wfFrom_cons lo' k' b' m').1 hwf'
      have hle : k ≤ k' :=
        Memory.le_of_byteAt_eq hwf' ((Memory.wfFrom_cons k k b m).2 ⟨le_rfl, hk, hb, hm⟩) (h k').symm
      have hge : k' ≤ k :=
        Memory.le_of_byteAt_eq hwf ((Memory.wfFrom_cons k' k' b' m').2 ⟨le_rfl, hk', hb', hm'⟩) (h k)
      obtain rfl : k = k' := le_antisymm hle hge
      have hbytes : b = b' := by simpa [Memory.byteAt_cons] using h k
      have htails : m = m' := by
        refine ih hm hm' fun a => ?_
        by_cases ha : a = k
        · rw [Memory.byteAt_of_lt hm (by omega), Memory.byteAt_of_lt hm' (by omega)]
        · simpa [Memory.byteAt_cons, Ne.symm ha] using h a
      rw [hbytes, htails]

end Sys2Proof.Machine

namespace Sys2Proof

open Sys2Proof.Machine

/-- Settles O19: field by field; of the memory by its canonical form. -/
theorem partsDetermineState : Obligations.PartsDetermineState := by
  unfold Obligations.PartsDetermineState
  intro s t hs ht h
  have hv : s.v = t.v := Vector.ext fun r hr => BitVec.eq_of_toNat_eq (h (.v ⟨r, hr⟩))
  have hstk : s.stk = t.stk := Vector.ext fun k hk => BitVec.eq_of_toNat_eq (h (.stk ⟨k, hk⟩))
  have hmem : s.mem = t.mem := Memory.eq_of_byteAt_eq hs ht fun a => BitVec.eq_of_toNat_eq (h (.mem a))
  have hfb : s.fb = t.fb := Framebuffer.ext_pixel fun r c => bool_toNat_injective (h (.pixel r c))
  have hkey : s.key = t.key := Vector.ext fun k hk => bool_toNat_injective (h (.key ⟨k, hk⟩))
  cases s
  cases t
  congr
  case e_i => exact BitVec.eq_of_toNat_eq (h .i)
  case e_pc => exact BitVec.eq_of_toNat_eq (h .pc)
  case e_dt => exact BitVec.eq_of_toNat_eq (h .dt)
  case e_st => exact BitVec.eq_of_toNat_eq (h .st)
  case e_sp => exact Fin.ext (h .sp)
  case e_wait => exact bool_toNat_injective (h .wait)
  case e_waitReg => exact Fin.ext (h .waitReg)
  case e_faulted => exact bool_toNat_injective (h .faulted)
  case e_faultCause => exact BitVec.eq_of_toNat_eq (h .faultCause)
  case e_faultAddr => exact BitVec.eq_of_toNat_eq (h .faultAddr)
  case e_faultLen => exact BitVec.eq_of_toNat_eq (h .faultLen)
  case e_draws => exact h .draws

end Sys2Proof

/-! The cycle as a whole (40_cycle.md, 45_timers_input.md): every state answers, a faulted one stays, the timers decay
after a dispatch, and the least key ends a wait. -/

namespace Sys2Proof.Machine

variable {s t u : State} {op : Word}

/-! ### The key latch -/

/-- A pressed key below which every key is released is the least one (45_timers_input.md R143). -/
theorem State.leastKey_of_least {k : KeyNum} (hk : s.keyDown k = true) (hlow : ∀ j < k, s.keyDown j = false) :
    s.leastKey = some k := by
  cases hleast : s.leastKey with
  | none =>
    rw [s.leastKey_none.1 hleast k] at hk
    contradiction
  | some m =>
    obtain ⟨hm, hbelow⟩ := s.leastKey_some m hleast
    obtain hlt | rfl | hgt := lt_trichotomy m k
    · simp [hlow m hlt] at hm
    · rfl
    · simp [hbelow k hgt] at hk

theorem State.leastKey_of_view {k : KeyNum} (hk : s.view (.key k) = 1) (hlow : ∀ j < k, s.view (.key j) = 0) :
    s.leastKey = some k :=
  State.leastKey_of_least (by simpa using hk) fun j hj => by simpa using hlow j hj

theorem State.leastKey_none_of_view (h : ∀ k : KeyNum, s.view (.key k) = 0) : s.leastKey = none :=
  s.leastKey_none.2 fun k => by simpa using h k

theorem toNat_keyByteOf (k : KeyNum) : (keyByteOf k).toNat = k.val := by
  have hk := k.isLt
  simp [keyByteOf]
  omega

/-! ### The ends of a cycle -/

theorem decayed_eq (b : Byte) : decayed b = BitVec.ofNat 8 (b.toNat - 1) := by
  apply BitVec.eq_of_toNat_eq
  rw [toNat_decayed]
  simp
  omega

/-- A dispatch that raises nothing ends the cycle with its timers decayed (40_cycle.md R76). -/
theorem step_decays (hf : s.faulted = false) (hw : s.wait = false) (hfetch : s.fetch = .ok op)
    (hstep : step s = .next t) (hexec : exec (decodeWord op) s.stepPc = .next u) (hu : u.faulted = false) :
    t = u.decayTimers := by
  cases hstep.symm.trans (step_of_exec hf hw hfetch hexec)
  simp [hu]

end Sys2Proof.Machine

namespace Sys2Proof

open Sys2Proof.Machine

/-- Settles O7: the two bytes at `PC` are the fetched opcode, and decay is the truncated predecessor. -/
theorem stepRunsDecoded : Obligations.StepRunsDecoded := by
  unfold Obligations.StepRunsDecoded
  intro s u i hf hw hpc _ hdecode hexec
  have hop : decodeWord (beWord (s.mem.byteAt s.pc.toNat) (s.mem.byteAt (s.pc.toNat + 1))) = i := by
    simpa [decodeBytes] using hdecode
  rw [step_of_exec hf hw (State.fetch_ok hpc) (by rw [hop]; exact hexec), ← decayed_eq, ← decayed_eq]
  rfl

/-- Settles O10: the dispatch moves a timer as it stands, and the decay comes after. -/
theorem timerLoadDecays : Obligations.TimerLoadDecays := by
  unfold Obligations.TimerLoadDecays
  intro s t x op hf hw hfetch hstep
  have decays {u : State} := step_decays (u := u) hf hw hfetch hstep
  refine ⟨fun hop => ?_, fun hop => ?_, fun hop => ?_⟩
  · rw [decays (u := s.stepPc.setDt (s.reg x)) (by rw [hop]; rfl) hf]
    exact ⟨toNat_decayed _, toNat_decayed _⟩
  · rw [decays (u := s.stepPc.setSt (s.reg x)) (by rw [hop]; rfl) hf]
    exact ⟨toNat_decayed _, toNat_decayed _⟩
  · rw [decays (u := s.stepPc.setReg x s.dt) (by rw [hop]; rfl) hf]
    exact ⟨congrArg BitVec.toNat (State.reg_setReg_same _ x s.dt), toNat_decayed _⟩

/-- Settles O11: by induction on the cycles, each of which answers the state as it is. -/
theorem faultedMachineStays : Obligations.FaultedMachineStays := by
  unfold Obligations.FaultedMachineStays
  intro n s hf
  induction n with
  | zero => rfl
  | succ n ih =>
    have hstep : Sys2Proof.core.step s = .next s := step_faulted s hf
    simp only [Host.Core.run, hstep]
    exact ih

/-- Settles O13: each of the four ways through a cycle answers. -/
theorem stepAlwaysAnswers : Obligations.StepAlwaysAnswers := by
  unfold Obligations.StepAlwaysAnswers
  intro s
  cases hf : s.faulted with
  | true => exact ⟨_, step_faulted s hf⟩
  | false =>
    cases hw : s.wait with
    | true => exact ⟨_, step_wait s hf hw⟩
    | false =>
      obtain hover | hrange := lt_or_ge 4096 (s.pc.toNat + 2)
      · exact ⟨_, step_fetch_fault s hf hw hover⟩
      · exact step_answers_of_fetch hf hw (State.fetch_ok hrange)

/-- Settles O12: the retry's two outcomes, each followed by the decay. -/
theorem retryOfWait : Obligations.RetryOfWait := by
  unfold Obligations.RetryOfWait
  intro s hf hw
  refine ⟨s.retryWait.decayTimers, step_wait s hf hw, ?_, ?_, fun k hk hlow => ?_, fun hnone => ?_⟩
  · simp [toNat_decayed]
  · simp [toNat_decayed]
  · have hretry : s.retryWait = (s.setReg s.waitReg (keyByteOf k)).endWait := by
      rw [State.retryWait, State.leastKey_of_view hk hlow]
    refine ⟨?_, ?_, ?_, ?_⟩
    · simp [hretry, State.reg, toNat_keyByteOf]
    · simp [hretry]
    · simp [hretry]
    · exact (s.retryWait_keeps.weaken (by simp)).trans ((State.decayTimers_keeps _).weaken (by simp))
  · have hretry : s.retryWait = s := by
      rw [State.retryWait, State.leastKey_none_of_view hnone]
    rw [hretry]
    exact s.decayTimers_keeps.weaken (by simp)

/-- Settles O58: a key down completes the instruction at once, none enters the wait. -/
theorem waitForKey : Obligations.WaitForKey := by
  unfold Obligations.WaitForKey
  intro s x
  refine ⟨fun k hk hlow => ?_, fun hnone => ?_⟩
  · have hexec : exec (.ldVxK x) s = .next (s.setReg x (keyByteOf k)) := by
      rw [exec, execLdVxK, State.leastKey_of_view hk hlow]
    exact ⟨_, hexec, by simp [toNat_keyByteOf], s.setReg_keeps x _⟩
  · have hexec : exec (.ldVxK x) s = .next (s.startWait x) := by
      rw [exec, execLdVxK, State.leastKey_none_of_view hnone]
    exact ⟨_, hexec, rfl, rfl, s.startWait_keeps x⟩

end Sys2Proof

/-! The reset values (10_state.md R29). -/

namespace Sys2Proof.Machine

/-- A font byte of the reset contents, glyph `d`, row `row` (10_state.md R22). -/
theorem resetByte_font {d row : Nat} (hd : d < 16) (hrow : row < 5) :
    resetByte (0x50 + 5 * d + row) = Config.font.getD (5 * d + row) 0 := by
  have hin : 0x50 ≤ 0x50 + 5 * d + row ∧ 0x50 + 5 * d + row < 0x50 + 80 := by omega
  have hoffset : 0x50 + 5 * d + row - 0x50 = 5 * d + row := by omega
  exact (if_pos hin).trans (congrArg (Config.font.getD · 0) hoffset)

theorem resetByte_outside {a : Nat} (h : a < 0x50 ∨ 0xA0 ≤ a) : resetByte a = 0 :=
  if_neg (show ¬ (0x50 ≤ a ∧ a < 0x50 + 80) by omega)

/-- The state that `reset` leaves, whatever the count of draws. -/
theorem resetValues_resetPort (s : State) : resetValues s.resetPort := by
  refine ⟨fun r => ?_, rfl, rfl, rfl, rfl, rfl, fun k => ?_, fun r c => ?_, fun k => ?_, rfl, rfl, rfl, rfl, rfl, rfl,
    fun d row hd hrow => congrArg BitVec.toNat (resetByte_font hd hrow),
    fun a ha => congrArg BitVec.toNat (resetByte_outside ha)⟩
  · simp [State.resetPort, State.reset, State.reg]
  · simp [State.resetPort, State.reset]
  · exact congrArg Bool.toNat (Framebuffer.pixel_clear r c)
  · simp [State.resetPort, State.reset, State.keyDown]

end Sys2Proof.Machine

namespace Sys2Proof

open Sys2Proof.Machine

/-- Settles O15: the reset state is what the port leaves when nothing has been drawn. -/
theorem resetState : Obligations.ResetState := by
  unfold Obligations.ResetState
  exact ⟨resetValues_resetPort State.reset, fun e => ⟨_, e.move_reset, resetValues_resetPort e.core, rfl, rfl⟩⟩

end Sys2Proof

/-! The remaining results of single instructions: no-ops, loads and logic, shifts, the random draw, `I`, key skips and
timer moves (30_encoding.md R59, 41_flow.md, 42_alu.md, 43_index_memory.md, 45_timers_input.md). -/

namespace Sys2Proof.Machine

variable {s : State} {i : Instr} {x : RegNum}

/-! ### The writes of one part -/

theorem exec_of_setReg {result : Byte} {n : Nat} (hexec : exec i s = .next (s.setReg x result))
    (hresult : result.toNat = n) :
    ∃ t, exec i s = .next t ∧ t.view (.v x) = n ∧ KeepsAllBut (fun p => p = .v x) s t :=
  ⟨_, hexec, by rw [State.view_v, State.reg_setReg_same, hresult], s.setReg_keeps x result⟩

theorem exec_of_setI {w : Word} {n : Nat} (hexec : exec i s = .next (s.setI w)) (hw : w.toNat = n) :
    ∃ t, exec i s = .next t ∧ t.view .i = n ∧ KeepsAllBut (fun p => p = .i) s t :=
  ⟨_, hexec, hw, s.setI_keeps w⟩

theorem exec_of_setPc {w : Word} {n : Nat} (hexec : exec i s = .next (s.setPc w)) (hw : w.toNat = n) :
    ∃ t, exec i s = .next t ∧ t.view .pc = n ∧ KeepsAllBut (fun p => p = .pc) s t :=
  ⟨_, hexec, hw, s.setPc_keeps w⟩

theorem exec_of_skipIf {c : Bool} {n : Nat} (hexec : exec i s = .next (s.skipIf c)) (hn : (if c then 2 else 0) = n) :
    ∃ t, exec i s = .next t ∧ t.view .pc = (s.view .pc + n) % 65536 ∧ KeepsAllBut (fun p => p = .pc) s t :=
  ⟨_, hexec, hn ▸ s.toNat_pc_skipIf c, s.skipIf_keeps c⟩

/-! ### The values written -/

theorem toNat_rightShift (vx : Byte) : (vx >>> 1).toNat = vx.toNat / 2 := by
  simp [Nat.shiftRight_eq_div_pow]

theorem toNat_leftShift (vx : Byte) : (vx <<< 1).toNat = 2 * vx.toNat % 256 := by
  simp [Nat.shiftLeft_eq, Nat.mul_comm]

theorem toNat_rightShiftedOut (vx : Byte) : (rightShiftedOut vx).toNat = vx.toNat % 2 := by
  rw [rightShiftedOut, BitVec.getLsbD, Nat.toNat_testBit]
  simp

theorem toNat_leftShiftedOut (vx : Byte) : (leftShiftedOut vx).toNat = vx.toNat / 128 := by
  have hvx := vx.isLt
  rw [leftShiftedOut, BitVec.getLsbD, Nat.toNat_testBit]
  omega

theorem keyIndex_reg {k : KeyNum} (hk : k.val = s.view (.v x) % 16) : keyIndex (s.reg x) = k :=
  Fin.ext ((toNat_keyIndex _).trans hk.symm)

end Sys2Proof.Machine

namespace Sys2Proof

open Sys2Proof.Machine

/-- Settles O29: the dispatch answers the state itself. -/
theorem noOpsChangeNothing : Obligations.NoOpsChangeNothing := by
  unfold Obligations.NoOpsChangeNothing
  intro s w i hi
  refine ⟨s, ?_, KeepsAllBut.refl _⟩
  simp only [List.mem_cons, List.not_mem_nil, or_false] at hi
  obtain rfl | rfl | rfl | rfl := hi <;> rfl

/-- Settles O31: a write of `PC`, whose sum is below 2^16. -/
theorem indexedJumpResult : Obligations.IndexedJumpResult := by
  unfold Obligations.IndexedJumpResult
  intro s nnn
  exact exec_of_setPc rfl (toNat_indexedTarget nnn (s.reg 0))

/-- Settles O38: one write of `V[x]` each. -/
theorem loadsAndFlaglessAdd : Obligations.LoadsAndFlaglessAdd := by
  unfold Obligations.LoadsAndFlaglessAdd
  intro s x y kk
  exact ⟨exec_of_setReg rfl rfl, exec_of_setReg rfl (BitVec.toNat_add _ _), exec_of_setReg rfl rfl⟩

/-- Settles O39: one write of `V[x]` each, the operation on numbers being bit by bit. -/
theorem logicBitByBit : Obligations.LogicBitByBit := by
  unfold Obligations.LogicBitByBit
  intro s x y
  refine ⟨⟨_, rfl, s.setReg_keeps x _, fun b _ => ?_⟩, ⟨_, rfl, s.setReg_keeps x _, fun b _ => ?_⟩,
    ⟨_, rfl, s.setReg_keeps x _, fun b _ => ?_⟩⟩
  · simp [Nat.testBit_or]
  · simp [Nat.testBit_and]
  · simp [Nat.testBit_xor]

/-- Settles O42: the write of a flag and a result, with the halved or doubled value and the bit shifted out. -/
theorem shiftsInPlace : Obligations.ShiftsInPlace := by
  unfold Obligations.ShiftsInPlace
  intro s x y
  exact ⟨exec_of_setFlagThenReg rfl (toNat_rightShift _) (toNat_rightShiftedOut _),
    exec_of_setFlagThenReg rfl (toNat_leftShift _) (toNat_leftShiftedOut _)⟩

theorem decodeWord_of_opT_rnd {op : Word} (hT : opT op = 0xC#4) : decodeWord op = .rnd (opX op) (opKk op) := by
  simp [decodeWord, hT]

/-- Settles O43: the draw, then one write of `V[x]`; a conjunction of bits is at most either operand. -/
theorem randomAndImmediate : Obligations.RandomAndImmediate := by
  unfold Obligations.RandomAndImmediate
  intro s x kk
  refine ⟨fun op hop => ?_, _, rfl, rfl, fun b _ => ?_, ?_, ?_⟩
  · obtain ⟨hT, hX, hKk⟩ := fields_of_toNat_formatXK (t := 0xC#4) hop
    rw [decodeWord_of_opT_rnd hT, hX, hKk]
  · simp [Nat.testBit_and]
  · simp [Nat.and_le_right]
  · exact (s.draw_keeps.weaken fun _ => .inr).trans ((State.setReg_keeps _ x _).weaken fun _ => .inl)

/-- Settles O44: one write of `I` each. -/
theorem addressRegister : Obligations.AddressRegister := by
  unfold Obligations.AddressRegister
  intro s x nnn
  refine ⟨exec_of_setI rfl (toNat_zextAddr nnn), exec_of_setI rfl ?_, exec_of_setI rfl (toNat_glyphAddr _)⟩
  simp [BitVec.toNat_add]

/-- Settles O56: one skip each, on the key that the low nibble of `V[x]` names. -/
theorem keySkips : Obligations.KeySkips := by
  unfold Obligations.KeySkips
  intro s x k hk
  have hkey := keyIndex_reg hk
  refine ⟨exec_of_skipIf rfl ?_, exec_of_skipIf rfl ?_⟩
  · rw [hkey, State.view_key]
    cases s.keyDown k <;> rfl
  · rw [hkey, State.view_key]
    cases s.keyDown k <;> rfl

/-- Settles O57: one write each, of a register or of a timer. -/
theorem timerMoves : Obligations.TimerMoves := by
  unfold Obligations.TimerMoves
  intro s x
  exact ⟨exec_of_setReg rfl rfl, ⟨_, rfl, rfl, s.setDt_keeps _⟩, ⟨_, rfl, rfl, s.setSt_keeps _⟩⟩

end Sys2Proof

/-! The bounds check and the words of the memory contract (20_memory.md R32 to R35, R39). -/

namespace Sys2Proof.Machine

variable (m : Memory) {addr : Word} {f : CoreFault}

theorem Memory.readBlock_eq_error_iff {len : Nat} :
    m.readBlock addr len = .error f ↔ 4096 < addr.toNat + len ∧ f = .outOfRange addr len := by
  obtain hover | hrange := lt_or_ge 4096 (addr.toNat + len)
  · simp [m.readBlock_error hover, hover, eq_comm]
  · simp [m.readBlock_ok hrange, hrange.not_gt]

theorem Memory.writeBlock_eq_error_iff {bytes : List Byte} :
    m.writeBlock addr bytes = .error f ↔ 4096 < addr.toNat + bytes.length ∧ f = .outOfRange addr bytes.length := by
  obtain hover | hrange := lt_or_ge 4096 (addr.toNat + bytes.length)
  · simp [m.writeBlock_error hover, hover, eq_comm]
  · simp [m.writeBlock_ok hrange, hrange.not_gt]

@[simp] theorem length_wordBytes (w : Word) : (wordBytes w).length = 2 := rfl

theorem toNat_getElem_wordBytes (w : Word) :
    (wordBytes w)[0].toNat = w.toNat / 256 ∧ (wordBytes w)[1].toNat = w.toNat % 256 := by
  have hw := w.isLt
  simp [wordBytes, Nat.shiftRight_eq_div_pow]
  omega

end Sys2Proof.Machine

namespace Sys2Proof

open Sys2Proof.Machine

/-- Settles O49: an access fails in one way only, by the exact sum. -/
theorem outOfRangeExactly : Obligations.OutOfRangeExactly := by
  unfold Obligations.OutOfRangeExactly
  intro m addr bytes
  simp [Memory.readBlock_eq_error_iff, Memory.writeBlock_eq_error_iff]

/-- Settles O51: the word of two bytes in memory order, and the two bytes of a word put there. -/
theorem wordsAreBigEndian : Obligations.WordsAreBigEndian := by
  unfold Obligations.WordsAreBigEndian
  intro m addr val hle
  have hrange : addr.toNat + 2 ≤ 4096 := by omega
  have byteAt {n : Nat} (hn : n < (wordBytes val).length) :=
    congrArg BitVec.toNat (m.byteAt_putBytes_inside addr.toNat hn)
  obtain ⟨high, low⟩ := toNat_getElem_wordBytes val
  exact ⟨⟨_, m.readWord_ok hrange, toNat_beWord _ _⟩, _, m.writeBlock_ok (bs := wordBytes val) hrange,
    (byteAt (n := 0) (by simp)).trans high, (byteAt (n := 1) (by simp)).trans low⟩

end Sys2Proof

/-! A sprite's bits and their pixels (44_display.md R132, R133), one draw after another at the same origin. -/

namespace Sys2Proof.Machine

variable {xs ys : Byte} {rows : List Byte} {r : Fin 32} {c : Fin 64}

/-! ### The pixel of a sprite bit -/

theorem column_eq_iff {j : Nat} (hj : j < 64) : c.val = (xs.toNat + j) % 64 ↔ (c.val + 256 - xs.toNat) % 64 = j := by
  have hx := xs.isLt
  omega

theorem row_eq_iff {k : Nat} (hk : k < 32) : r.val = (ys.toNat + k) % 32 ↔ (r.val + 256 - ys.toNat) % 32 = k := by
  have hy := ys.isLt
  omega

/-- Past its last row a sprite has no set bit. -/
theorem lt_length_of_getLsbD {k b : Nat} (h : (rows.getD k 0).getLsbD b = true) : k < rows.length := by
  by_contra hk
  rw [List.getD_eq_default _ _ (by omega)] at h
  simp at h

/-- The pixels a sprite covers, from its bits forward. -/
theorem spriteCovers_iff (hrows : rows.length ≤ 32) :
    spriteCovers xs ys rows r c = true ↔ ∃ k j, k < rows.length ∧ j < 8 ∧ (rows.getD k 0).getLsbD (7 - j) = true ∧
      c.val = (xs.toNat + j) % 64 ∧ r.val = (ys.toNat + k) % 32 := by
  simp only [spriteCovers, Bool.and_eq_true, decide_eq_true_eq]
  constructor
  · rintro ⟨hcol, hbit⟩
    have hrow := lt_length_of_getLsbD hbit
    exact ⟨_, _, hrow, hcol, hbit, (column_eq_iff (by omega)).2 rfl, (row_eq_iff (by omega)).2 rfl⟩
  · rintro ⟨k, j, hk, hj, hbit, hc, hr⟩
    rw [(column_eq_iff (by omega)).1 hc, (row_eq_iff (by omega)).1 hr]
    exact ⟨hj, hbit⟩

/-- The pixels that the bytes at `a` cover, as a sprite of `len` rows. -/
theorem spriteCovers_bytesFrom_iff (m : Memory) (a : Nat) {len : Nat} (hlen : len ≤ 32) :
    spriteCovers xs ys (m.bytesFrom a len) r c = true ↔ ∃ k j, k < len ∧ j < 8 ∧
      (m.byteAt (a + k)).getLsbD (7 - j) = true ∧ c.val = (xs.toNat + j) % 64 ∧ r.val = (ys.toNat + k) % 32 := by
  have hlength := m.length_bytesFrom len a
  rw [spriteCovers_iff (hlength.trans_le hlen), hlength]
  refine exists_congr fun k => exists_congr fun j => and_congr_right fun hk => ?_
  rw [m.getD_bytesFrom a hk]

/-- A covered pixel with some property is a set bit that falls on one. -/
theorem exists_covered_iff_exists_bit (m : Memory) (a : Nat) {len : Nat} (hlen : len ≤ 32)
    (P : Fin 32 → Fin 64 → Prop) :
    (∃ r c, spriteCovers xs ys (m.bytesFrom a len) r c = true ∧ P r c) ↔ ∃ k j r c, k < len ∧ j < 8 ∧
      (m.byteAt (a + k)).getLsbD (7 - j) = true ∧ r.val = (ys.toNat + k) % 32 ∧ c.val = (xs.toNat + j) % 64 ∧
        P r c := by
  simp only [spriteCovers_bytesFrom_iff m a hlen]
  constructor
  · rintro ⟨r, c, ⟨k, j, hk, hj, hbit, hc, hr⟩, hP⟩
    exact ⟨k, j, r, c, hk, hj, hbit, hr, hc, hP⟩
  · rintro ⟨k, j, r, c, hk, hj, hbit, hr, hc, hP⟩
    exact ⟨r, c, ⟨k, j, hk, hj, hbit, hc, hr⟩, hP⟩

end Sys2Proof.Machine

namespace Sys2Proof

open Sys2Proof.Machine

/-- Settles O54: a pixel's distances from the origin are the row and the column of the one bit that falls on it. -/
theorem spriteWrapsPerPixel : Obligations.SpriteWrapsPerPixel := by
  unfold Obligations.SpriteWrapsPerPixel
  intro xs ys rows r c hrows
  refine ⟨spriteCovers_iff (by omega), fun k j k' j' hk hk' hj hj' hc hr hc' hr' => ⟨?_, ?_⟩⟩
  · exact ((row_eq_iff (by omega)).1 hr).symm.trans ((row_eq_iff (by omega)).1 hr')
  · exact ((column_eq_iff (by omega)).1 hc).symm.trans ((column_eq_iff (by omega)).1 hc')

end Sys2Proof

namespace Sys2Proof.Machine

variable {s : State} {x y : RegNum} {rows : List Byte}

/-! ### Two draws -/

/-- A draw after a draw reads the same rows: the first writes neither memory nor `I`. -/
theorem exec_drw_afterDraw {n : Nibble} (hrange : s.i.toNat + n.toNat ≤ 4096) :
    exec (.drw x y n) (s.afterDraw x y rows) =
      .next ((s.afterDraw x y rows).afterDraw x y (s.mem.bytesFrom s.i.toNat n.toNat)) :=
  exec_drw_ok (s.afterDraw x y rows) x y hrange

section
variable (hrows : rows.length ≤ 32)
include hrows

theorem State.view_vf_afterDraw_eq_one_iff :
    (s.afterDraw x y rows).view (.v 15) = 1 ↔
      ∃ r c, spriteCovers (s.reg x) (s.reg y) rows r c = true ∧ s.fb.pixel r c = true := by
  rw [State.view_vf_afterDraw, Bool.toNat_eq_one, drawSprite_coll _ _ _ _ hrows]

variable (hx : (s.afterDraw x y rows).reg x = s.reg x) (hy : (s.afterDraw x y rows).reg y = s.reg y)
include hx hy

/-- The second draw flips the same pixels back. -/
theorem State.pixel_afterDraw_afterDraw (r : Fin 32) (c : Fin 64) :
    ((s.afterDraw x y rows).afterDraw x y rows).fb.pixel r c = s.fb.pixel r c := by
  rw [State.pixel_afterDraw hrows, State.pixel_afterDraw hrows, hx, hy, Bool.xor_assoc, Bool.xor_self, Bool.xor_false]

/-- A pixel that the first draw turned on collides with the second. -/
theorem State.view_vf_afterDraw_afterDraw_eq_one_iff :
    ((s.afterDraw x y rows).afterDraw x y rows).view (.v 15) = 1 ↔
      ∃ r c, spriteCovers (s.reg x) (s.reg y) rows r c = true ∧ s.view (.pixel r c) = 0 := by
  rw [State.view_vf_afterDraw_eq_one_iff hrows, hx, hy]
  refine exists_congr fun r => exists_congr fun c => and_congr_right fun hcovers => ?_
  rw [State.pixel_afterDraw hrows, hcovers]
  simp

end

/-- A byte is zero when none of its eight bits is set. -/
theorem byte_ne_zero_iff (b : Byte) : b.toNat ≠ 0 ↔ ∃ j < 8, b.toNat.testBit (7 - j) = true := by
  constructor
  · intro hb
    obtain ⟨k, hk⟩ := Nat.exists_testBit_of_ne_zero hb
    have hlt : k < 8 := by
      by_contra hge
      rw [Nat.testBit_lt_two_pow (b.isLt.trans_le (Nat.pow_le_pow_right (by omega) (by omega)))] at hk
      cases hk
    exact ⟨7 - k, by omega, by rwa [Nat.sub_sub_self (by omega)]⟩
  · rintro ⟨j, -, hbit⟩ hb
    simp [hb] at hbit

end Sys2Proof.Machine

namespace Sys2Proof

open Sys2Proof.Machine

/-- Settles O55: both draws are of the same rows at the same origin, as neither writes memory or `I`. -/
theorem drawTwiceRestores : Obligations.DrawTwiceRestores := by
  unfold Obligations.DrawTwiceRestores
  intro s t u x y n hrange ht hx hy hu
  cases ht.symm.trans (exec_drw_ok s x y hrange)
  cases hu.symm.trans (exec_drw_afterDraw hrange)
  have hlength := s.mem.length_bytesFrom n.toNat s.i.toNat
  have hrows : (s.mem.bytesFrom s.i.toNat n.toNat).length ≤ 32 := by omega
  have hcoll := (State.view_vf_afterDraw_afterDraw_eq_one_iff hrows hx hy).trans
    (exists_covered_iff_exists_bit s.mem s.i.toNat (by omega) _)
  refine ⟨fun r c => congrArg Bool.toNat (State.pixel_afterDraw_afterDraw hrows hx hy r c), hcoll, fun hclear => ?_⟩
  rw [hcoll]
  constructor
  · rintro ⟨k, j, -, -, hk, hj, hbit, -⟩
    exact ⟨k, hk, (byte_ne_zero_iff _).2 ⟨j, hj, hbit⟩⟩
  · rintro ⟨k, hk, hne⟩
    obtain ⟨j, hj, hbit⟩ := (byte_ne_zero_iff _).1 hne
    exact ⟨k, j, Fin.ofNat 32 _, Fin.ofNat 64 _, hk, hj, hbit, rfl, rfl, hclear _ _⟩

end Sys2Proof

/-! The loader's moves (10_state.md R25, 70_reset_and_hazards.md R184). -/

namespace Sys2Proof.Machine

variable (s : State)

theorem State.put_keeps (a : Nat) (b : Byte) : KeepsAllBut (fun p => p = .mem a) s (s.setMem (s.mem.put a b)) := by
  intro p hp
  cases p with
  | mem a' =>
    have hne : a' ≠ a := fun e => hp (congrArg Part.mem e)
    simp [Memory.byteAt_put_other _ b hne]
  | _ => rfl

theorem Env.move_step {e : Env} {t : State} (h : step e.core = .next t) : e.move .step = some ⟨t, true⟩ := by
  simp [Env.move, h]

/-- The moves for the bytes from `a` on, one after another, are the block put there. -/
theorem moves_loadMovesFrom (bs : List Byte) : ∀ (s : State) (a : Nat), Config.loadBase ≤ a → a + bs.length ≤ 4096 →
    (Env.mk s false).moves (loadMovesFrom a bs) = some (Env.mk (s.setMem (s.mem.putBytes a bs)) false) := by
  induction bs with
  | nil => exact fun _ _ _ _ => rfl
  | cons b bs ih =>
    intro s a hbase htop
    rw [List.length_cons] at htop
    have haddr : (BitVec.ofNat 12 a).toNat = a := Nat.mod_eq_of_lt (by omega)
    rw [loadMovesFrom, Env.moves_cons _ _ (Env.move_load _ b rfl (by rwa [haddr])), haddr,
      ih _ (a + 1) (by omega) (by omega)]
    rfl

end Sys2Proof.Machine

namespace Sys2Proof

open Sys2Proof.Machine

/-- Settles O60: a load is one byte put, an image the block put, to which its moves add up. -/
theorem loaderWritesImage : Obligations.LoaderWritesImage := by
  unfold Obligations.LoaderWritesImage
  refine ⟨fun e addr data => ⟨fun hstart hbase => ?_, fun hlow => ?_, fun hstart => ?_, ?_⟩,
    fun s image => ⟨fun hfits => ?_, fun hlarge => ?_⟩⟩
  · exact ⟨_, Env.move_load e data hstart hbase, by simp, hstart, e.core.put_keeps _ data⟩
  · exact Env.move_load_none e data (.inr hlow)
  · exact Env.move_load_none e data (.inl hstart)
  · obtain ⟨t, hstep⟩ := stepAlwaysAnswers e.core
    exact ⟨_, Env.move_step hstep, rfl⟩
  · refine ⟨_, if_pos hfits, fun j hj => ?_, s.putBytes_keeps 0x200#16 image,
      moves_loadMovesFrom image s 0x200 le_rfl (by omega)⟩
    rw [List.getD_eq_getElem _ _ hj]
    exact congrArg BitVec.toNat (s.mem.byteAt_putBytes_inside 0x200 hj)
  · exact if_neg (by simpa using hlarge)

end Sys2Proof
